-- ==== Sys2Proof/Word.lean ====
section
/-! DEFINITION. The word type of the machine (00_scope.md R8, R12): every register, pc, address and data value is a
32-bit pattern; memory is made of bytes; a register operand is an index 0 to 31 (30_encoding.md R84). -/

namespace Sys2Proof

/-- A 32-bit pattern, read as signed or unsigned by each instruction (00_scope.md R12). -/
abbrev Word := BitVec 32

/-- One byte of memory. -/
abbrev Byte := BitVec 8

/-- The index of a general register, 0 to 31 (10_state.md R20). -/
abbrev RegIdx := Fin 32

end Sys2Proof
end

