-- ==== Sys2Proof/Config.lean ====
section
/-! DEFINITION. The parameters a model takes (00_scope.md R8), which the spec leaves OPEN (92_eei_decisions.md D1, D2,
D3), and the bound on them that R9 states. The other rows of R8 are fixed and stand in the types and meanings. -/

namespace Sys2Proof

/-- The parameters of one block: constants for a run (00_scope.md R8). -/
structure Config where
  /-- `MEM_BASE`: the address of the first byte of memory. -/
  memBase : Word
  /-- `MEM_SIZE`: how many bytes of memory there are. -/
  memSize : Nat
  /-- `EXT_M`: whether the multiply/divide unit is present. -/
  extM : Bool
deriving DecidableEq, Repr

/-- The first address past the window, `MEM_BASE + MEM_SIZE`, on unbounded integers (20_memory.md R40). -/
def Config.memEnd (c : Config) : Nat := c.memBase.toNat + c.memSize

/-- Well-formed configuration (00_scope.md R9): `1 <= MEM_SIZE` and `MEM_BASE + MEM_SIZE < 2^32`. -/
def Config.wf (c : Config) : Bool := decide (1 ≤ c.memSize) && decide (c.memEnd < 2 ^ 32)

/-- The configuration the machine is reset with: the spec's own test configuration (95_test_vectors.md),
`MEM_BASE = 0x80000000`, `MEM_SIZE = 0x1000`, `EXT_M = true`. DESIGN CHOICE (log entry 1), unsafe: the spec leaves
all three open, and a statement about `State.reset` speaks of these values only. -/
def Config.reference : Config := { memBase := 0x80000000#32, memSize := 0x1000, extM := true }

end Sys2Proof
end

