-- ==== Sys2Proof/Syntax.lean ====
section
/-! DEFINITION. The instructions: one constructor for each row of spec/opcode_table.json, with the operand fields the
row's format gives it (30_encoding.md R75 to R80, R84). An immediate is kept at the width of its bits in the word
(imm_I and imm_S 12 bits, imm_B 13, imm_J 21, imm_U the upper 20); Operands.lean extends it. Bits the hardware
ignores are no operand and are not kept (log entry 9). -/

namespace Sys2Proof

/-- The 46 instructions of the opcode table (00_scope.md R4). -/
inductive Instr where
  /-- ADD (R111). -/
  | add (rd rs1 rs2 : RegIdx)
  /-- SUB (R112). -/
  | sub (rd rs1 rs2 : RegIdx)
  /-- SLL (R113). -/
  | sll (rd rs1 rs2 : RegIdx)
  /-- SLT (R114). -/
  | slt (rd rs1 rs2 : RegIdx)
  /-- SLTU (R115). -/
  | sltu (rd rs1 rs2 : RegIdx)
  /-- XOR (R116). -/
  | xor (rd rs1 rs2 : RegIdx)
  /-- SRL (R117). -/
  | srl (rd rs1 rs2 : RegIdx)
  /-- SRA (R118). -/
  | sra (rd rs1 rs2 : RegIdx)
  /-- OR (R119). -/
  | or (rd rs1 rs2 : RegIdx)
  /-- AND (R120). -/
  | and (rd rs1 rs2 : RegIdx)
  /-- ADDI (R131). -/
  | addi (rd rs1 : RegIdx) (imm : BitVec 12)
  /-- SLTI (R132). -/
  | slti (rd rs1 : RegIdx) (imm : BitVec 12)
  /-- SLTIU (R133). -/
  | sltiu (rd rs1 : RegIdx) (imm : BitVec 12)
  /-- XORI (R134). -/
  | xori (rd rs1 : RegIdx) (imm : BitVec 12)
  /-- ORI (R135). -/
  | ori (rd rs1 : RegIdx) (imm : BitVec 12)
  /-- ANDI (R136). -/
  | andi (rd rs1 : RegIdx) (imm : BitVec 12)
  /-- SLLI (R137). -/
  | slli (rd rs1 : RegIdx) (shamt : BitVec 5)
  /-- SRLI (R138). -/
  | srli (rd rs1 : RegIdx) (shamt : BitVec 5)
  /-- SRAI (R139). -/
  | srai (rd rs1 : RegIdx) (shamt : BitVec 5)
  /-- LB (R151). -/
  | lb (rd rs1 : RegIdx) (imm : BitVec 12)
  /-- LH (R152). -/
  | lh (rd rs1 : RegIdx) (imm : BitVec 12)
  /-- LW (R153). -/
  | lw (rd rs1 : RegIdx) (imm : BitVec 12)
  /-- LBU (R154). -/
  | lbu (rd rs1 : RegIdx) (imm : BitVec 12)
  /-- LHU (R155). -/
  | lhu (rd rs1 : RegIdx) (imm : BitVec 12)
  /-- SB (R161). -/
  | sb (rs1 rs2 : RegIdx) (imm : BitVec 12)
  /-- SH (R162). -/
  | sh (rs1 rs2 : RegIdx) (imm : BitVec 12)
  /-- SW (R163). -/
  | sw (rs1 rs2 : RegIdx) (imm : BitVec 12)
  /-- BEQ (R171). -/
  | beq (rs1 rs2 : RegIdx) (imm : BitVec 13)
  /-- BNE (R172). -/
  | bne (rs1 rs2 : RegIdx) (imm : BitVec 13)
  /-- BLT (R173). -/
  | blt (rs1 rs2 : RegIdx) (imm : BitVec 13)
  /-- BGE (R174). -/
  | bge (rs1 rs2 : RegIdx) (imm : BitVec 13)
  /-- BLTU (R175). -/
  | bltu (rs1 rs2 : RegIdx) (imm : BitVec 13)
  /-- BGEU (R176). -/
  | bgeu (rs1 rs2 : RegIdx) (imm : BitVec 13)
  /-- LUI (R181). -/
  | lui (rd : RegIdx) (imm : BitVec 20)
  /-- AUIPC (R182). -/
  | auipc (rd : RegIdx) (imm : BitVec 20)
  /-- JAL (R186). -/
  | jal (rd : RegIdx) (imm : BitVec 21)
  /-- JALR (R187). -/
  | jalr (rd rs1 : RegIdx) (imm : BitVec 12)
  /-- FENCE (R190). -/
  | fence
  /-- MUL (R201). -/
  | mul (rd rs1 rs2 : RegIdx)
  /-- MULH (R202). -/
  | mulh (rd rs1 rs2 : RegIdx)
  /-- MULHSU (R203). -/
  | mulhsu (rd rs1 rs2 : RegIdx)
  /-- MULHU (R204). -/
  | mulhu (rd rs1 rs2 : RegIdx)
  /-- DIV (R205). -/
  | div (rd rs1 rs2 : RegIdx)
  /-- DIVU (R206). -/
  | divu (rd rs1 rs2 : RegIdx)
  /-- REM (R207). -/
  | rem (rd rs1 rs2 : RegIdx)
  /-- REMU (R208). -/
  | remu (rd rs1 rs2 : RegIdx)
deriving DecidableEq, Repr

/-- Why a word is no instruction: the clauses of 30_encoding.md R85. -/
inductive UndefinedReason where
  /-- The opcode is none of the ten of R81. -/
  | opcode
  /-- Opcode 0x03 with funct3 011, 110 or 111. -/
  | loadFunct3
  /-- Opcode 0x23 with funct3 011 to 111. -/
  | storeFunct3
  /-- Opcode 0x63 with funct3 010 or 011. -/
  | branchFunct3
deriving DecidableEq, Repr

/-- What the decoder answers for a word (30_encoding.md R74, R83): an instruction, or the representable variant
`Undefined`, with the reason by name. The latter is no fault: 48_fence_and_undefined.md R192 gives its execution. -/
inductive Decoded where
  | instr (i : Instr)
  | undefined (why : UndefinedReason)
deriving DecidableEq, Repr

end Sys2Proof
end

