-- ==== Sys2Proof/WellFormed.lean ====
section
/-! DEFINITION. When a term of Instr stands for an encodable instruction of a block with a given `EXT_M`. The widths
of the operand fields are in their types; three checks are left: a branch offset is even (30_encoding.md R71), a JAL
offset is even (R72), and a multiply/divide instruction exists only when `EXT_M` is true (49_muldiv.md R200). -/

namespace Sys2Proof

/-- Bit 0 of a B- or J-immediate "is always 0" (30_encoding.md R71, R72). -/
def evenOffset {w : Nat} (imm : BitVec w) : Bool := !imm.getLsbD 0

/-- The well-formed instructions of a block whose parameter `EXT_M` is `extM`. -/
def Instr.wf (extM : Bool) : Instr → Bool
  | .add _ _ _ => true
  | .sub _ _ _ => true
  | .sll _ _ _ => true
  | .slt _ _ _ => true
  | .sltu _ _ _ => true
  | .xor _ _ _ => true
  | .srl _ _ _ => true
  | .sra _ _ _ => true
  | .or _ _ _ => true
  | .and _ _ _ => true
  | .addi _ _ _ => true
  | .slti _ _ _ => true
  | .sltiu _ _ _ => true
  | .xori _ _ _ => true
  | .ori _ _ _ => true
  | .andi _ _ _ => true
  | .slli _ _ _ => true
  | .srli _ _ _ => true
  | .srai _ _ _ => true
  | .lb _ _ _ => true
  | .lh _ _ _ => true
  | .lw _ _ _ => true
  | .lbu _ _ _ => true
  | .lhu _ _ _ => true
  | .sb _ _ _ => true
  | .sh _ _ _ => true
  | .sw _ _ _ => true
  | .beq _ _ imm => evenOffset imm
  | .bne _ _ imm => evenOffset imm
  | .blt _ _ imm => evenOffset imm
  | .bge _ _ imm => evenOffset imm
  | .bltu _ _ imm => evenOffset imm
  | .bgeu _ _ imm => evenOffset imm
  | .lui _ _ => true
  | .auipc _ _ => true
  | .jal _ imm => evenOffset imm
  | .jalr _ _ _ => true
  | .fence => true
  | .mul _ _ _ => extM
  | .mulh _ _ _ => extM
  | .mulhsu _ _ _ => extM
  | .mulhu _ _ _ => extM
  | .div _ _ _ => extM
  | .divu _ _ _ => extM
  | .rem _ _ _ => extM
  | .remu _ _ _ => extM

end Sys2Proof
end

