-- ==== Sys2Proof/Decode.lean ====
section
/-! DEFINITION. From words to instructions and back (30_encoding.md). The field and immediate extractions (R62 to R73)
are total on every word (R61); `decode` is the classification of R83; `encode` writes the word of an instruction from
the format tables R75 to R80, with zeros in the bits the hardware ignores; `opcodeTable` is spec/opcode_table.json's
match and mask columns. No decoding looks at anything but the word and `EXT_M`. -/

namespace Sys2Proof

/-! ## Fields (R62 to R68) -/

/-- The register a 5-bit field names. -/
def regOfBits (b : BitVec 5) : RegIdx := ⟨b.toNat, b.isLt⟩

/-- The 5-bit field that names a register. -/
def bitsOfReg (r : RegIdx) : BitVec 5 := BitVec.ofNat 5 r.val

/-- `opcode := inst[6:0]` (R62). -/
def opcodeField (w : Word) : BitVec 7 := w.extractLsb' 0 7

/-- `rd := inst[11:7]` (R63). -/
def rdField (w : Word) : RegIdx := regOfBits (w.extractLsb' 7 5)

/-- `funct3 := inst[14:12]` (R64). -/
def funct3Field (w : Word) : BitVec 3 := w.extractLsb' 12 3

/-- `rs1 := inst[19:15]` (R65). -/
def rs1Field (w : Word) : RegIdx := regOfBits (w.extractLsb' 15 5)

/-- `rs2 := inst[24:20]` (R66). -/
def rs2Field (w : Word) : RegIdx := regOfBits (w.extractLsb' 20 5)

/-- `funct7 := inst[31:25]` (R67). -/
def funct7Field (w : Word) : BitVec 7 := w.extractLsb' 25 7

/-- `inst[30]`, the source's "funct7 bit 5 (value 0x20)" (R67, R82). -/
def altBit (w : Word) : Bool := w.getLsbD 30

/-- `shamt := inst[24:20]`, the bits of rs2 (R68). -/
def shamtField (w : Word) : BitVec 5 := w.extractLsb' 20 5

/-! ## Immediate fields, at the width of their bits (R69 to R73) -/

/-- `inst[31:20]` (R69). -/
def immIField (w : Word) : BitVec 12 := w.extractLsb' 20 12

/-- The bits 31:25, then 11:7 of the word (R70). -/
def immSField (w : Word) : BitVec 12 := w.extractLsb' 25 7 ++ w.extractLsb' 7 5

/-- The bits 31, 7, 30:25, 11:8 of the word, then a 0 (R71). -/
def immBField (w : Word) : BitVec 13 :=
  w.extractLsb' 31 1 ++ w.extractLsb' 7 1 ++ w.extractLsb' 25 6 ++ w.extractLsb' 8 4 ++ 0#1

/-- The bits 31, 19:12, 20, 30:21 of the word, then a 0 (R72). -/
def immJField (w : Word) : BitVec 21 :=
  w.extractLsb' 31 1 ++ w.extractLsb' 12 8 ++ w.extractLsb' 20 1 ++ w.extractLsb' 21 10 ++ 0#1

/-- `inst[31:12]` (R73). -/
def immUField (w : Word) : BitVec 20 := w.extractLsb' 12 20

/-! ## Immediates as the execution units see them: 32 bits (R69 to R73) -/

/-- `imm_I := sext_12(inst[31:20])` (R69), and `imm_S` the same of its own 12 bits (R70). -/
def extend12 (imm : BitVec 12) : Word := imm.signExtend 32

/-- `imm_B := sext_13(...)` (R71). -/
def extend13 (imm : BitVec 13) : Word := imm.signExtend 32

/-- `imm_J := sext_21(...)` (R72). -/
def extend21 (imm : BitVec 21) : Word := imm.signExtend 32

/-- `imm_U := (inst[31:12], twelve zeros)` (R73). -/
def upperImm (imm : BitVec 20) : Word := imm ++ 0#12

/-- Every output of the decoder, extracted "from every word, whatever its opcode" (R61). -/
structure Fields where
  opcode : BitVec 7
  rd : RegIdx
  funct3 : BitVec 3
  rs1 : RegIdx
  rs2 : RegIdx
  funct7 : BitVec 7
  shamt : BitVec 5
  immI : Word
  immS : Word
  immB : Word
  immJ : Word
  immU : Word
deriving DecidableEq, Repr

/-- The decoder's extraction (R61 to R73). -/
def fieldsOf (w : Word) : Fields :=
  { opcode := opcodeField w, rd := rdField w, funct3 := funct3Field w, rs1 := rs1Field w, rs2 := rs2Field w
    funct7 := funct7Field w, shamt := shamtField w, immI := extend12 (immIField w), immS := extend12 (immSField w)
    immB := extend13 (immBField w), immJ := extend21 (immJField w), immU := upperImm (immUField w) }

/-! ## Classification (R83) -/

/-- The M unit's row, by funct3 (R82, R83). -/
def mulDivOf (funct3 : BitVec 3) (rd rs1 rs2 : RegIdx) : Instr :=
  match funct3 with
  | 0b000#3 => .mul rd rs1 rs2
  | 0b001#3 => .mulh rd rs1 rs2
  | 0b010#3 => .mulhsu rd rs1 rs2
  | 0b011#3 => .mulhu rd rs1 rs2
  | 0b100#3 => .div rd rs1 rs2
  | 0b101#3 => .divu rd rs1 rs2
  | 0b110#3 => .rem rd rs1 rs2
  | _ => .remu rd rs1 rs2

/-- The R unit's row, by funct3 and, for 000 and 101 only, bit 30 (R82, R83). -/
def rTypeOf (funct3 : BitVec 3) (alt : Bool) (rd rs1 rs2 : RegIdx) : Instr :=
  match funct3 with
  | 0b000#3 => if alt then .sub rd rs1 rs2 else .add rd rs1 rs2
  | 0b001#3 => .sll rd rs1 rs2
  | 0b010#3 => .slt rd rs1 rs2
  | 0b011#3 => .sltu rd rs1 rs2
  | 0b100#3 => .xor rd rs1 rs2
  | 0b101#3 => if alt then .sra rd rs1 rs2 else .srl rd rs1 rs2
  | 0b110#3 => .or rd rs1 rs2
  | _ => .and rd rs1 rs2

/-- The I unit's row, by funct3 and, for 101 only, bit 30 (R82, R83). -/
def iTypeOf (funct3 : BitVec 3) (alt : Bool) (rd rs1 : RegIdx) (imm : BitVec 12) (shamt : BitVec 5) : Instr :=
  match funct3 with
  | 0b000#3 => .addi rd rs1 imm
  | 0b001#3 => .slli rd rs1 shamt
  | 0b010#3 => .slti rd rs1 imm
  | 0b011#3 => .sltiu rd rs1 imm
  | 0b100#3 => .xori rd rs1 imm
  | 0b101#3 => if alt then .srai rd rs1 shamt else .srli rd rs1 shamt
  | 0b110#3 => .ori rd rs1 imm
  | _ => .andi rd rs1 imm

/-- The L unit's row, by funct3; 011, 110 and 111 are undefined (R83, R85). -/
def loadOf (funct3 : BitVec 3) (rd rs1 : RegIdx) (imm : BitVec 12) : Decoded :=
  match funct3 with
  | 0b000#3 => .instr (.lb rd rs1 imm)
  | 0b001#3 => .instr (.lh rd rs1 imm)
  | 0b010#3 => .instr (.lw rd rs1 imm)
  | 0b100#3 => .instr (.lbu rd rs1 imm)
  | 0b101#3 => .instr (.lhu rd rs1 imm)
  | _ => .undefined .loadFunct3

/-- The S unit's row, by funct3; 011 to 111 are undefined (R83, R85). -/
def storeOf (funct3 : BitVec 3) (rs1 rs2 : RegIdx) (imm : BitVec 12) : Decoded :=
  match funct3 with
  | 0b000#3 => .instr (.sb rs1 rs2 imm)
  | 0b001#3 => .instr (.sh rs1 rs2 imm)
  | 0b010#3 => .instr (.sw rs1 rs2 imm)
  | _ => .undefined .storeFunct3

/-- The B unit's row, by funct3; 010 and 011 are undefined (R83, R85). -/
def branchOf (funct3 : BitVec 3) (rs1 rs2 : RegIdx) (imm : BitVec 13) : Decoded :=
  match funct3 with
  | 0b000#3 => .instr (.beq rs1 rs2 imm)
  | 0b001#3 => .instr (.bne rs1 rs2 imm)
  | 0b100#3 => .instr (.blt rs1 rs2 imm)
  | 0b101#3 => .instr (.bge rs1 rs2 imm)
  | 0b110#3 => .instr (.bltu rs1 rs2 imm)
  | 0b111#3 => .instr (.bgeu rs1 rs2 imm)
  | _ => .undefined .branchFunct3

/-- `classify` (R83): the opcode selects the unit (R81), and with `EXT_M` funct7 = 0000001 selects the M unit before
the R unit. Every other opcode is undefined (R85). -/
def decode (extM : Bool) (w : Word) : Decoded :=
  match opcodeField w with
  | 0x33#7 =>
    if extM && funct7Field w == 0b0000001#7 then .instr (mulDivOf (funct3Field w) (rdField w) (rs1Field w) (rs2Field w))
    else .instr (rTypeOf (funct3Field w) (altBit w) (rdField w) (rs1Field w) (rs2Field w))
  | 0x13#7 => .instr (iTypeOf (funct3Field w) (altBit w) (rdField w) (rs1Field w) (immIField w) (shamtField w))
  | 0x03#7 => loadOf (funct3Field w) (rdField w) (rs1Field w) (immIField w)
  | 0x23#7 => storeOf (funct3Field w) (rs1Field w) (rs2Field w) (immSField w)
  | 0x63#7 => branchOf (funct3Field w) (rs1Field w) (rs2Field w) (immBField w)
  | 0x37#7 => .instr (.lui (rdField w) (immUField w))
  | 0x17#7 => .instr (.auipc (rdField w) (immUField w))
  | 0x6F#7 => .instr (.jal (rdField w) (immJField w))
  | 0x67#7 => .instr (.jalr (rdField w) (rs1Field w) (immIField w))
  | 0x0F#7 => .instr .fence
  | _ => .undefined .opcode

/-! ## Words in memory (R60, 20_memory.md R49): four bytes, the least significant at the lowest address -/

/-- The bytes of a word, lowest address first. -/
def wordBytes (w : Word) : List Byte :=
  [w.extractLsb' 0 8, w.extractLsb' 8 8, w.extractLsb' 16 8, w.extractLsb' 24 8]

/-- The word whose bytes are given, lowest address first. -/
def wordOfBytes (b0 b1 b2 b3 : Byte) : Word := b3 ++ b2 ++ b1 ++ b0

/-- The decoder on bytes: one word and the bytes after it. None only where fewer than four bytes are given, which a
fetch never gives (R60: "There is no other length"). -/
def decodeBytes (extM : Bool) : List Byte → Option (Decoded × List Byte)
  | b0 :: b1 :: b2 :: b3 :: rest => some (decode extM (wordOfBytes b0 b1 b2 b3), rest)
  | _ => none

/-- The instruction the decoder of the reference configuration reads from an instruction whose bits are `w`, all bits
above `nbits` zero; none where the word is an undefined encoding. -/
def decodeTableWord (nbits w : Nat) : Option Instr :=
  match decodeBytes Config.reference.extM (wordBytes (BitVec.ofNat 32 (w % 2 ^ nbits))) with
  | some (.instr i, _) => some i
  | _ => none

/-! ## Encoding (the formats R75 to R80) -/

/-- R-format (R75). -/
def encodeR (funct7 : BitVec 7) (funct3 : BitVec 3) (rd rs1 rs2 : RegIdx) : Word :=
  funct7 ++ bitsOfReg rs2 ++ bitsOfReg rs1 ++ funct3 ++ bitsOfReg rd ++ 0x33#7

/-- I-format (R76). -/
def encodeI (opcode : BitVec 7) (funct3 : BitVec 3) (rd rs1 : RegIdx) (imm : BitVec 12) : Word :=
  imm ++ bitsOfReg rs1 ++ funct3 ++ bitsOfReg rd ++ opcode

/-- I-format of the immediate shifts (R76). -/
def encodeShift (funct7 : BitVec 7) (funct3 : BitVec 3) (rd rs1 : RegIdx) (shamt : BitVec 5) : Word :=
  funct7 ++ shamt ++ bitsOfReg rs1 ++ funct3 ++ bitsOfReg rd ++ 0x13#7

/-- S-format (R77). -/
def encodeS (funct3 : BitVec 3) (rs1 rs2 : RegIdx) (imm : BitVec 12) : Word :=
  imm.extractLsb' 5 7 ++ bitsOfReg rs2 ++ bitsOfReg rs1 ++ funct3 ++ imm.extractLsb' 0 5 ++ 0x23#7

/-- B-format (R78); bit 0 of the offset has no place in the word. -/
def encodeB (funct3 : BitVec 3) (rs1 rs2 : RegIdx) (imm : BitVec 13) : Word :=
  imm.extractLsb' 12 1 ++ imm.extractLsb' 5 6 ++ bitsOfReg rs2 ++ bitsOfReg rs1 ++ funct3 ++ imm.extractLsb' 1 4 ++
    imm.extractLsb' 11 1 ++ 0x63#7

/-- U-format (R79). -/
def encodeU (opcode : BitVec 7) (rd : RegIdx) (imm : BitVec 20) : Word := imm ++ bitsOfReg rd ++ opcode

/-- J-format (R80); bit 0 of the offset has no place in the word. -/
def encodeJ (rd : RegIdx) (imm : BitVec 21) : Word :=
  imm.extractLsb' 20 1 ++ imm.extractLsb' 1 10 ++ imm.extractLsb' 11 1 ++ imm.extractLsb' 12 8 ++ bitsOfReg rd ++ 0x6F#7

/-- The word of an instruction. Where the hardware ignores bits (funct7 of most R rows, funct7 bits of the shifts,
funct3 of JALR, all of FENCE but its opcode: R82, R86) they are zero (log entry 9). -/
def encode : Instr → Word
  | .add rd rs1 rs2 => encodeR 0b0000000#7 0b000#3 rd rs1 rs2
  | .sub rd rs1 rs2 => encodeR 0b0100000#7 0b000#3 rd rs1 rs2
  | .sll rd rs1 rs2 => encodeR 0b0000000#7 0b001#3 rd rs1 rs2
  | .slt rd rs1 rs2 => encodeR 0b0000000#7 0b010#3 rd rs1 rs2
  | .sltu rd rs1 rs2 => encodeR 0b0000000#7 0b011#3 rd rs1 rs2
  | .xor rd rs1 rs2 => encodeR 0b0000000#7 0b100#3 rd rs1 rs2
  | .srl rd rs1 rs2 => encodeR 0b0000000#7 0b101#3 rd rs1 rs2
  | .sra rd rs1 rs2 => encodeR 0b0100000#7 0b101#3 rd rs1 rs2
  | .or rd rs1 rs2 => encodeR 0b0000000#7 0b110#3 rd rs1 rs2
  | .and rd rs1 rs2 => encodeR 0b0000000#7 0b111#3 rd rs1 rs2
  | .addi rd rs1 imm => encodeI 0x13#7 0b000#3 rd rs1 imm
  | .slti rd rs1 imm => encodeI 0x13#7 0b010#3 rd rs1 imm
  | .sltiu rd rs1 imm => encodeI 0x13#7 0b011#3 rd rs1 imm
  | .xori rd rs1 imm => encodeI 0x13#7 0b100#3 rd rs1 imm
  | .ori rd rs1 imm => encodeI 0x13#7 0b110#3 rd rs1 imm
  | .andi rd rs1 imm => encodeI 0x13#7 0b111#3 rd rs1 imm
  | .slli rd rs1 shamt => encodeShift 0b0000000#7 0b001#3 rd rs1 shamt
  | .srli rd rs1 shamt => encodeShift 0b0000000#7 0b101#3 rd rs1 shamt
  | .srai rd rs1 shamt => encodeShift 0b0100000#7 0b101#3 rd rs1 shamt
  | .lb rd rs1 imm => encodeI 0x03#7 0b000#3 rd rs1 imm
  | .lh rd rs1 imm => encodeI 0x03#7 0b001#3 rd rs1 imm
  | .lw rd rs1 imm => encodeI 0x03#7 0b010#3 rd rs1 imm
  | .lbu rd rs1 imm => encodeI 0x03#7 0b100#3 rd rs1 imm
  | .lhu rd rs1 imm => encodeI 0x03#7 0b101#3 rd rs1 imm
  | .sb rs1 rs2 imm => encodeS 0b000#3 rs1 rs2 imm
  | .sh rs1 rs2 imm => encodeS 0b001#3 rs1 rs2 imm
  | .sw rs1 rs2 imm => encodeS 0b010#3 rs1 rs2 imm
  | .beq rs1 rs2 imm => encodeB 0b000#3 rs1 rs2 imm
  | .bne rs1 rs2 imm => encodeB 0b001#3 rs1 rs2 imm
  | .blt rs1 rs2 imm => encodeB 0b100#3 rs1 rs2 imm
  | .bge rs1 rs2 imm => encodeB 0b101#3 rs1 rs2 imm
  | .bltu rs1 rs2 imm => encodeB 0b110#3 rs1 rs2 imm
  | .bgeu rs1 rs2 imm => encodeB 0b111#3 rs1 rs2 imm
  | .lui rd imm => encodeU 0x37#7 rd imm
  | .auipc rd imm => encodeU 0x17#7 rd imm
  | .jal rd imm => encodeJ rd imm
  | .jalr rd rs1 imm => encodeI 0x67#7 0b000#3 rd rs1 imm
  | .fence => 0x0000000F#32
  | .mul rd rs1 rs2 => encodeR 0b0000001#7 0b000#3 rd rs1 rs2
  | .mulh rd rs1 rs2 => encodeR 0b0000001#7 0b001#3 rd rs1 rs2
  | .mulhsu rd rs1 rs2 => encodeR 0b0000001#7 0b010#3 rd rs1 rs2
  | .mulhu rd rs1 rs2 => encodeR 0b0000001#7 0b011#3 rd rs1 rs2
  | .div rd rs1 rs2 => encodeR 0b0000001#7 0b100#3 rd rs1 rs2
  | .divu rd rs1 rs2 => encodeR 0b0000001#7 0b101#3 rd rs1 rs2
  | .rem rd rs1 rs2 => encodeR 0b0000001#7 0b110#3 rd rs1 rs2
  | .remu rd rs1 rs2 => encodeR 0b0000001#7 0b111#3 rd rs1 rs2

/-! ## The opcode table (spec/opcode_table.json) -/

/-- A row's mnemonic, match and mask, and whether the row exists only when `EXT_M` is true. -/
structure OpcodeRow where
  mnemonic : String
  bits : Word
  mask : Word
  needsM : Bool
deriving DecidableEq, Repr

/-- A word is of a row when its masked bits are the row's, and the row is present. -/
def OpcodeRow.covers (extM : Bool) (r : OpcodeRow) (w : Word) : Bool := (extM || !r.needsM) && (w &&& r.mask) == r.bits

/-- The multiply/divide rows (49_muldiv.md), "matched before the base R rows". -/
def mulDivRows : List OpcodeRow :=
  [⟨"MUL", 0x02000033#32, 0xFE00707F#32, true⟩,
   ⟨"MULH", 0x02001033#32, 0xFE00707F#32, true⟩,
   ⟨"MULHSU", 0x02002033#32, 0xFE00707F#32, true⟩,
   ⟨"MULHU", 0x02003033#32, 0xFE00707F#32, true⟩,
   ⟨"DIV", 0x02004033#32, 0xFE00707F#32, true⟩,
   ⟨"DIVU", 0x02005033#32, 0xFE00707F#32, true⟩,
   ⟨"REM", 0x02006033#32, 0xFE00707F#32, true⟩,
   ⟨"REMU", 0x02007033#32, 0xFE00707F#32, true⟩]

/-- The R rows (41_r_type.md). -/
def rRows : List OpcodeRow :=
  [⟨"ADD", 0x00000033#32, 0x4000707F#32, false⟩,
   ⟨"SUB", 0x40000033#32, 0x4000707F#32, false⟩,
   ⟨"SLL", 0x00001033#32, 0x0000707F#32, false⟩,
   ⟨"SLT", 0x00002033#32, 0x0000707F#32, false⟩,
   ⟨"SLTU", 0x00003033#32, 0x0000707F#32, false⟩,
   ⟨"XOR", 0x00004033#32, 0x0000707F#32, false⟩,
   ⟨"SRL", 0x00005033#32, 0x4000707F#32, false⟩,
   ⟨"SRA", 0x40005033#32, 0x4000707F#32, false⟩,
   ⟨"OR", 0x00006033#32, 0x0000707F#32, false⟩,
   ⟨"AND", 0x00007033#32, 0x0000707F#32, false⟩]

/-- The I rows (42_i_type.md). -/
def iRows : List OpcodeRow :=
  [⟨"ADDI", 0x00000013#32, 0x0000707F#32, false⟩,
   ⟨"SLTI", 0x00002013#32, 0x0000707F#32, false⟩,
   ⟨"SLTIU", 0x00003013#32, 0x0000707F#32, false⟩,
   ⟨"XORI", 0x00004013#32, 0x0000707F#32, false⟩,
   ⟨"ORI", 0x00006013#32, 0x0000707F#32, false⟩,
   ⟨"ANDI", 0x00007013#32, 0x0000707F#32, false⟩,
   ⟨"SLLI", 0x00001013#32, 0x0000707F#32, false⟩,
   ⟨"SRLI", 0x00005013#32, 0x4000707F#32, false⟩,
   ⟨"SRAI", 0x40005013#32, 0x4000707F#32, false⟩]

/-- The load and store rows (43_loads.md, 44_stores.md). -/
def memRows : List OpcodeRow :=
  [⟨"LB", 0x00000003#32, 0x0000707F#32, false⟩,
   ⟨"LH", 0x00001003#32, 0x0000707F#32, false⟩,
   ⟨"LW", 0x00002003#32, 0x0000707F#32, false⟩,
   ⟨"LBU", 0x00004003#32, 0x0000707F#32, false⟩,
   ⟨"LHU", 0x00005003#32, 0x0000707F#32, false⟩,
   ⟨"SB", 0x00000023#32, 0x0000707F#32, false⟩,
   ⟨"SH", 0x00001023#32, 0x0000707F#32, false⟩,
   ⟨"SW", 0x00002023#32, 0x0000707F#32, false⟩]

/-- The branch, upper-immediate, jump and FENCE rows (45_branches.md to 48_fence_and_undefined.md). -/
def flowRows : List OpcodeRow :=
  [⟨"BEQ", 0x00000063#32, 0x0000707F#32, false⟩,
   ⟨"BNE", 0x00001063#32, 0x0000707F#32, false⟩,
   ⟨"BLT", 0x00004063#32, 0x0000707F#32, false⟩,
   ⟨"BGE", 0x00005063#32, 0x0000707F#32, false⟩,
   ⟨"BLTU", 0x00006063#32, 0x0000707F#32, false⟩,
   ⟨"BGEU", 0x00007063#32, 0x0000707F#32, false⟩,
   ⟨"LUI", 0x00000037#32, 0x0000007F#32, false⟩,
   ⟨"AUIPC", 0x00000017#32, 0x0000007F#32, false⟩,
   ⟨"JAL", 0x0000006F#32, 0x0000007F#32, false⟩,
   ⟨"JALR", 0x00000067#32, 0x0000007F#32, false⟩,
   ⟨"FENCE", 0x0000000F#32, 0x0000007F#32, false⟩]

/-- All 46 rows, in the order of precedence of R83. -/
def opcodeTable : List OpcodeRow := mulDivRows ++ rRows ++ iRows ++ memRows ++ flowRows

/-- The mnemonic of an instruction, as the opcode table has it. -/
def Instr.mnemonic : Instr → String
  | .add .. => "ADD"
  | .sub .. => "SUB"
  | .sll .. => "SLL"
  | .slt .. => "SLT"
  | .sltu .. => "SLTU"
  | .xor .. => "XOR"
  | .srl .. => "SRL"
  | .sra .. => "SRA"
  | .or .. => "OR"
  | .and .. => "AND"
  | .addi .. => "ADDI"
  | .slti .. => "SLTI"
  | .sltiu .. => "SLTIU"
  | .xori .. => "XORI"
  | .ori .. => "ORI"
  | .andi .. => "ANDI"
  | .slli .. => "SLLI"
  | .srli .. => "SRLI"
  | .srai .. => "SRAI"
  | .lb .. => "LB"
  | .lh .. => "LH"
  | .lw .. => "LW"
  | .lbu .. => "LBU"
  | .lhu .. => "LHU"
  | .sb .. => "SB"
  | .sh .. => "SH"
  | .sw .. => "SW"
  | .beq .. => "BEQ"
  | .bne .. => "BNE"
  | .blt .. => "BLT"
  | .bge .. => "BGE"
  | .bltu .. => "BLTU"
  | .bgeu .. => "BGEU"
  | .lui .. => "LUI"
  | .auipc .. => "AUIPC"
  | .jal .. => "JAL"
  | .jalr .. => "JALR"
  | .fence => "FENCE"
  | .mul .. => "MUL"
  | .mulh .. => "MULH"
  | .mulhsu .. => "MULHSU"
  | .mulhu .. => "MULHU"
  | .div .. => "DIV"
  | .divu .. => "DIVU"
  | .rem .. => "REM"
  | .remu .. => "REMU"

/-- The mnemonic of a decoded word; none for an undefined encoding. -/
def Decoded.mnemonic? : Decoded → Option String
  | .instr i => some i.mnemonic
  | .undefined _ => none

end Sys2Proof
end

