-- ==== Sys2Proof/Machine/State.lean ====
section
/-! DEFINITION. The state of the block (10_state.md R34): the register file, the program counter, the memory, the model's
fault mark, and the parameters the run is made with. Plain data. The state right after reset (R35, 70_reset_and_hazards.md
R240). -/

namespace Sys2Proof.Machine

/-- The kind of a memory access (60_exceptions.md R221: "fetch, load, store"). -/
inductive AccessKind where
  | fetch
  | load
  | store
deriving DecidableEq, Repr

/-- The width of a memory access: 8, 16 or 32 bits; "No other width exists" (20_memory.md R42). -/
inductive AccessWidth where
  | byte
  | half
  | word
deriving DecidableEq, Repr

/-- Why a step stops with a fault. -/
inductive Fault where
  /-- `MemFault(addr, n)` of 60_exceptions.md R221, the only fault: raised by a fetch, a load or a store (and by the read
  of `valid_step`) any byte of which lies outside the memory window, and answered again by every later step of a state
  whose fault mark holds it (40_step_driver.md R94, log entry 4). SAFE: the spec's reading of the source's "undefined"
  (20_memory.md R46, D5); nothing of the step is committed. -/
  | memFault (kind : AccessKind) (addr : Word) (width : AccessWidth)
deriving DecidableEq, Repr

/-- Why the model refuses. -/
inductive Refusal where
  /-- Raised by an arm of exec whose instruction has no meaning yet. No arm raises it in this model. SAFE. -/
  | notModelled (mnemonic : String)
  /-- Raised by every operation of the block, of the host and by every instruction in a state whose parameters break
  00_scope.md R9: "A model refuses every other configuration". SAFE (log entry 5). -/
  | configNotWellFormed
  /-- Raised by the host operation `loadImage` for an image longer than the memory (70_reset_and_hazards.md R241: "The
  image must fit in the buffer"). No instruction raises it. SAFE (log entry 6). -/
  | imageTooLarge
deriving DecidableEq, Repr

/-- The memory buffer (10_state.md R31), by absolute address: the cells written so far, addresses strictly rising, no
cell equal to what an unlisted address reads as (`Memory.wf` of Ops.lean). -/
structure Memory where
  cells : List Host.Cell
deriving DecidableEq, Repr

/-- The whole state between steps (10_state.md R34). -/
structure State where
  /-- `x`: 32 slots of 32 bits (R20). Slot 0 is read and written through `readReg` and `commit` only. -/
  regs : Vector Word 32
  /-- `pc` (R25): the address of the instruction being executed; not necessarily a multiple of 4 (R27). -/
  pc : Word
  /-- `mem` (R31). -/
  mem : Memory
  /-- The fault mark, "in the model only" (R34): none is clear; never cleared once set. -/
  faultMark : Option Fault
  /-- The parameters of the block, constants of a run (00_scope.md R8); the model's own field (log entry 1). -/
  cfg : Config
deriving DecidableEq, Repr

/-- The memory with nothing listed. -/
def Memory.empty : Memory := { cells := [] }

/-- The state after `init` of a block with legal parameters `c` (00_scope.md R9: there is no such state for others) whose
memory lists nothing (10_state.md R35): `pc` is `MEM_BASE`, `x[2]` is `MEM_BASE + MEM_SIZE`, exact, the fault mark is clear.
The other registers are 0: DESIGN CHOICE, unsafe (log entry 2), the spec leaves them unspecified. -/
def State.resetOf (c : Config) (_legal : c.wf = true) : State :=
  { regs := (Vector.replicate 32 0#32).set 2 (BitVec.ofNat 32 c.memEnd)
    pc := c.memBase
    mem := Memory.empty
    faultMark := none
    cfg := c }

/-- The machine right after reset, with the spec's test configuration (log entry 1). -/
def State.reset : State := State.resetOf Config.reference (by decide)

end Sys2Proof.Machine
end

