-- ==== Sys2Proof/Machine/Ops.lean ====
section
/-! DEFINITION. The named operations over registers and memory: the memory window and accessor (20_memory.md), the
register file with its hard-wired slot 0 (10_state.md R20 to R22), the effect of an instruction and its commit
(40_step_driver.md R91, R92), and the raising of the one fault there is (60_exceptions.md R221, R224). The block takes
no exception and returns from none (R220, R224, R225): `raise MemFault` stands in the place of both. -/

namespace Sys2Proof.Machine

/-! ## Memory cells -/

/-- What a byte nothing has written reads as. DESIGN CHOICE, unsafe (log entry 3): the spec leaves the bytes beyond the
host's image unspecified (10_state.md R35, D24). -/
def Memory.background : Byte := 0x00#8

/-- The byte the first cell of an address holds, or the background. -/
def readCells (a : Nat) : List Host.Cell → Byte
  | [] => Memory.background
  | (b, v) :: rest => if b = a then v else readCells a rest

/-- The cells without those of one address. -/
def eraseCells (a : Nat) : List Host.Cell → List Host.Cell
  | [] => []
  | (b, v) :: rest => if b = a then eraseCells a rest else (b, v) :: eraseCells a rest

/-- The cells with one cell put in its place by address, over any cell of that address there. -/
def insertCells (a : Nat) (v : Byte) : List Host.Cell → List Host.Cell
  | [] => [(a, v)]
  | (b, u) :: rest =>
    if b < a then (b, u) :: insertCells a v rest
    else if b = a then (a, v) :: rest
    else (a, v) :: (b, u) :: rest

/-- The cells' addresses rise strictly from `lo` on, and no cell holds the background. -/
def cellsWf : Nat → List Host.Cell → Bool
  | _, [] => true
  | lo, (a, v) :: rest => decide (lo ≤ a) && v != Memory.background && cellsWf (a + 1) rest

/-- The canonical form: two memories in it that read alike are equal data. -/
def Memory.wf (m : Memory) : Bool := cellsWf 0 m.cells

/-- The byte at an absolute address. -/
def Memory.read (m : Memory) (a : Nat) : Byte := readCells a m.cells

/-- The memory with one byte written. Writing the background unlists the address. -/
def Memory.write (m : Memory) (a : Nat) (v : Byte) : Memory :=
  { cells := if v = Memory.background then eraseCells a m.cells else insertCells a v m.cells }

/-! ## The window and the accessor (20_memory.md) -/

/-- The bytes of an access, `n` (R42). -/
def AccessWidth.bytes : AccessWidth → Nat
  | .byte => 1
  | .half => 2
  | .word => 4

/-- `inWindow` (R40), on unbounded integers, half open. -/
def inWindow (c : Config) (a : Nat) : Bool := decide (c.memBase.toNat ≤ a) && decide (a < c.memEnd)

/-- Whether the `n` bytes from `a` on all lie in the window; `addr + k` does not wrap (R43). -/
def windowHolds (c : Config) (a : Nat) : Nat → Bool
  | 0 => true
  | n + 1 => windowHolds c a n && inWindow c (a + n)

/-- Little-endian read of `n` bytes, zero-extended (R43): byte `k` gives bits 8k+7 to 8k. -/
def Memory.readLE (m : Memory) (a : Nat) : Nat → Word
  | 0 => 0#32
  | n + 1 => m.readLE a n ||| (m.read (a + n)).setWidth 32 <<< (8 * n)

/-- Little-endian write of the low `n` bytes of `v` (R44): bits 8k+7 to 8k go to byte `k`. -/
def Memory.writeLE (m : Memory) (a : Nat) (v : Word) : Nat → Memory
  | 0 => m
  | n + 1 => (m.writeLE a v n).write (a + n) ((v >>> (8 * n)).setWidth 8)

/-- `MemRead(addr, n)` (R43): all bytes are checked before any is read; an access with a byte outside the window raises
`MemFault` (R46). No alignment is asked for (R48). -/
def memRead (c : Config) (m : Memory) (kind : AccessKind) (addr : Word) (w : AccessWidth) : Except Fault Word :=
  if windowHolds c addr.toNat w.bytes then .ok (m.readLE addr.toNat w.bytes) else .error (.memFault kind addr w)

/-- `MemWrite(addr, n, v)` (R44): all bytes are checked before any is written (R46, 40_step_driver.md R93). -/
def memWrite (c : Config) (m : Memory) (addr : Word) (w : AccessWidth) (v : Word) : Except Fault Memory :=
  if windowHolds c addr.toNat w.bytes then .ok (m.writeLE addr.toNat v w.bytes) else .error (.memFault .store addr w)

/-- The state with another memory. -/
def State.withMem (s : State) (m : Memory) : State := { s with mem := m }

/-! ## The register file (10_state.md) -/

/-- `x[i]`: "slot 0 always reads as 0" (R21). -/
def State.readReg (s : State) (i : RegIdx) : Word := if i = 0 then 0#32 else s.regs[i]

/-- The register write of an effect, before the zeroing: it may stage a value in slot 0 (R22). -/
def writeBack (wr : Option (RegIdx × Word)) (regs : Vector Word 32) : Vector Word 32 :=
  match wr with
  | none => regs
  | some (i, v) => regs.set i.val v

/-- x0 zeroing, "unconditionally" after the dispatch (40_step_driver.md R95). -/
def zeroSlot (regs : Vector Word 32) : Vector Word 32 := regs.set 0 0#32

/-! ## The configuration (00_scope.md R9) -/

/-- "A model refuses every other configuration": an outcome is had in a state with legal parameters only. Every operation
and every instruction asks this first (log entries 5 and 20). -/
def onLegalConfig {α : Type} (s : State) (go : Host.Outcome α Fault Refusal) : Host.Outcome α Fault Refusal :=
  if s.cfg.wf then go else .refused .configNotWellFormed

/-! ## Effects (40_step_driver.md R91, R92) -/

/-- What an instruction does, computed from the state at the start of the step without changing it (R91). -/
structure Effect where
  /-- The register write, `x[i] <- v`. -/
  wr : Option (RegIdx × Word)
  /-- The store, `MemWrite(addr, n, v)`. -/
  st : Option (Word × AccessWidth × Word)
  /-- The next pc. -/
  next : Word
deriving DecidableEq, Repr

/-- The memory after the store of an effect. -/
def storeEffect (st : Option (Word × AccessWidth × Word)) (s : State) : Except Fault Memory :=
  match st with
  | none => .ok s.mem
  | some (addr, w, v) => memWrite s.cfg s.mem addr w v

/-- The state after an effect whose store has left the memory `m` (R92): writeback, x0 zeroing, memory, pc. -/
def State.committed (s : State) (e : Effect) (m : Memory) : State :=
  { s with regs := zeroSlot (writeBack e.wr s.regs), mem := m, pc := e.next }

/-- The commit of an effect (R92). A store outside the window commits nothing (R93). -/
def commit (e : Effect) (s : State) : Host.Outcome State Fault Refusal :=
  onLegalConfig s
    (match storeEffect e.st s with
    | .error f => .fault f
    | .ok m => .next (s.committed e m))

/-- The effect that writes one register and goes on to the next instruction. -/
def writeEffect (s : State) (rd : RegIdx) (v : Word) : Effect := { wr := some (rd, v), st := none, next := s.pc + 4#32 }

/-- The effect that does nothing but advance the pc (48_fence_and_undefined.md R190, R192). -/
def advanceEffect (s : State) : Effect := { wr := none, st := none, next := s.pc + 4#32 }

/-! ## The fault (60_exceptions.md R221, R224) -/

/-- `raise MemFault`: "the state after it is the state before the faulting step, with the fault mark set" (R224). -/
def raiseFault (f : Fault) (s : State) : State := { s with faultMark := some f }

end Sys2Proof.Machine
end

