-- ==== Sys2Proof/Machine/Flags.lean ====
section
/-! DEFINITION. The block has no flags, condition codes or predicate registers (10_state.md R28): a comparison delivers
its result into a general register or into the choice of the next pc. Here stand the comparisons and `bool32`
(00_scope.md R12, R13). -/

namespace Sys2Proof.Machine

/-- `a <s b` is `s(a) < s(b)` (R13). -/
def lessSigned (a b : Word) : Bool := decide (a.toInt < b.toInt)

/-- `a <u b` is `u(a) < u(b)` (R13). -/
def lessUnsigned (a b : Word) : Bool := decide (a.toNat < b.toNat)

/-- `a == b` compares all 32 bits (R13). -/
def sameWord (a b : Word) : Bool := decide (a = b)

/-- `bool32(c)` (R13). -/
def bool32 (c : Bool) : Word := if c then 1#32 else 0#32

end Sys2Proof.Machine
end

