-- ==== Sys2Proof/Machine/Operands.lean ====
section
/-! DEFINITION. The operand forms (30_encoding.md R84): a general register, an immediate extended as its format says,
the 5-bit shift amounts, the one addressing mode of loads and stores (43_loads.md R156), and the targets of branches
and jumps. Every operand is read from the state at the start of the step (00_scope.md R15). -/

namespace Sys2Proof.Machine

/-- The operands `x[rs1]`, `x[rs2]` of the register-register forms. -/
def regPair (s : State) (rs1 rs2 : RegIdx) : Word × Word := (s.readReg rs1, s.readReg rs2)

/-- The operands `x[rs1]`, `imm_I` of the register-immediate forms (R69). -/
def regImm (s : State) (rs1 : RegIdx) (imm : BitVec 12) : Word × Word := (s.readReg rs1, extend12 imm)

/-- The operands `x[rs1]`, `shamt` of the immediate shifts: "unsigned 5-bit, unsign-extended" (R68). -/
def regShamt (s : State) (rs1 : RegIdx) (shamt : BitVec 5) : Word × Word := (s.readReg rs1, shamt.setWidth 32)

/-- A shift amount: the low 5 bits of the operand (41_r_type.md R113; 0 to 31, R121). -/
def shiftAmount (b : Word) : Nat := (b.extractLsb' 0 5).toNat

/-- The effective address, `x[rs1] + sext(imm)` modulo 2^32 (R156); loads give it imm_I, stores imm_S. -/
def effectiveAddress (s : State) (rs1 : RegIdx) (imm : BitVec 12) : Word := s.readReg rs1 + extend12 imm

/-- A branch's taken target, relative to the branch itself (45_branches.md R177, 40_step_driver.md R97). -/
def branchTarget (s : State) (imm : BitVec 13) : Word := s.pc + extend13 imm

/-- JAL's target (47_jumps.md R186). -/
def jalTarget (s : State) (imm : BitVec 21) : Word := s.pc + extend21 imm

/-- JALR's target, with bit 0 forced to 0 (47_jumps.md R187). -/
def jalrTarget (s : State) (rs1 : RegIdx) (imm : BitVec 12) : Word :=
  (s.readReg rs1 + extend12 imm) &&& 0xFFFFFFFE#32

/-- The return address, `pc + 4` (47_jumps.md R185). -/
def returnAddress (s : State) : Word := s.pc + 4#32

end Sys2Proof.Machine
end

