-- ==== Sys2Proof/Machine/Branches.lean ====
section
/-! DEFINITION. The B unit (45_branches.md): a comparison of two registers chooses between `pc + imm_B` and `pc + 4`; no register, no
memory, no fault; no alignment check (R177). -/

namespace Sys2Proof.Machine

/-- The template of a branch (R170). -/
def branchOn (cond : Word → Word → Bool) (rs1 rs2 : RegIdx) (imm : BitVec 13) (s : State) :
    Host.Outcome State Fault Refusal :=
  commit
    { wr := none, st := none
      next := if cond (s.readReg rs1) (s.readReg rs2) then branchTarget s imm else s.pc + 4#32 } s

/-- `a == b` (R171). -/
def condEq (a b : Word) : Bool := sameWord a b

/-- `a != b` (R172). -/
def condNe (a b : Word) : Bool := !sameWord a b

/-- `a <s b` (R173). -/
def condLt (a b : Word) : Bool := lessSigned a b

/-- `not (a <s b)` (R174). -/
def condGe (a b : Word) : Bool := !lessSigned a b

/-- `a <u b` (R175). -/
def condLtu (a b : Word) : Bool := lessUnsigned a b

/-- `not (a <u b)` (R176). -/
def condGeu (a b : Word) : Bool := !lessUnsigned a b

/-- BEQ (R171). -/
def execBeq (rs1 rs2 : RegIdx) (imm : BitVec 13) (s : State) : Host.Outcome State Fault Refusal :=
  branchOn condEq rs1 rs2 imm s

/-- BNE (R172). -/
def execBne (rs1 rs2 : RegIdx) (imm : BitVec 13) (s : State) : Host.Outcome State Fault Refusal :=
  branchOn condNe rs1 rs2 imm s

/-- BLT (R173). -/
def execBlt (rs1 rs2 : RegIdx) (imm : BitVec 13) (s : State) : Host.Outcome State Fault Refusal :=
  branchOn condLt rs1 rs2 imm s

/-- BGE (R174). -/
def execBge (rs1 rs2 : RegIdx) (imm : BitVec 13) (s : State) : Host.Outcome State Fault Refusal :=
  branchOn condGe rs1 rs2 imm s

/-- BLTU (R175). -/
def execBltu (rs1 rs2 : RegIdx) (imm : BitVec 13) (s : State) : Host.Outcome State Fault Refusal :=
  branchOn condLtu rs1 rs2 imm s

/-- BGEU (R176). -/
def execBgeu (rs1 rs2 : RegIdx) (imm : BitVec 13) (s : State) : Host.Outcome State Fault Refusal :=
  branchOn condGeu rs1 rs2 imm s

end Sys2Proof.Machine
end

