-- ==== Sys2Proof/Machine/Fence.lean ====
section
/-! DEFINITION. The words that do nothing but advance the pc (48_fence_and_undefined.md): FENCE, and every undefined encoding, those of
ECALL, EBREAK, the CSR instructions, MRET, SRET and WFI among them (R193). -/

namespace Sys2Proof.Machine

/-- FENCE (R190): "single-hart core has nothing to order". -/
def execFence (s : State) : Host.Outcome State Fault Refusal := commit (advanceEffect s) s

/-- `execute_Undefined` (R192): "a no-op except for the unconditional pc += 4 and the x0-zeroing". -/
def execUndefined (s : State) : Host.Outcome State Fault Refusal := commit (advanceEffect s) s

end Sys2Proof.Machine
end

