-- ==== Sys2Proof/Machine/RType.lean ====
section
/-! DEFINITION. The R unit (41_r_type.md): `x[rd] <- x[rs1] op x[rs2]`, pc + 4, no memory, no fault. The results are named, since the
I unit computes the same functions of other operands (R121). -/

namespace Sys2Proof.Machine

/-- `a + b` modulo 2^32 (R111). -/
def addWord (a b : Word) : Word := a + b

/-- `a - b` modulo 2^32 (R112). -/
def subWord (a b : Word) : Word := a - b

/-- `a << b[4:0]`, zeros entering from the right (R113). -/
def shiftLeft (a b : Word) : Word := a <<< shiftAmount b

/-- `bool32(a <s b)` (R114). -/
def setLess (a b : Word) : Word := bool32 (lessSigned a b)

/-- `bool32(a <u b)` (R115). -/
def setLessUnsigned (a b : Word) : Word := bool32 (lessUnsigned a b)

/-- `a ^ b` (R116). -/
def xorWord (a b : Word) : Word := a ^^^ b

/-- `a >>u b[4:0]`, zeros entering from the left (R117). -/
def shiftRight (a b : Word) : Word := a >>> shiftAmount b

/-- `a >>s b[4:0]`, copies of a[31] entering from the left (R118). -/
def shiftRightArith (a b : Word) : Word := a.sshiftRight (shiftAmount b)

/-- `a | b` (R119). -/
def orWord (a b : Word) : Word := a ||| b

/-- `a & b` (R120). -/
def andWord (a b : Word) : Word := a &&& b

/-- The template of every register-writing operation on two operand values: both are read before the write
(R110, R130, 49_muldiv.md R200). -/
def writeResult (op : Word → Word → Word) (operands : Word × Word) (rd : RegIdx) (s : State) : Host.Outcome State Fault Refusal :=
  commit (writeEffect s rd (op operands.1 operands.2)) s

/-- ADD (R111). -/
def execAdd (rd rs1 rs2 : RegIdx) (s : State) : Host.Outcome State Fault Refusal :=
  writeResult addWord (regPair s rs1 rs2) rd s

/-- SUB (R112). -/
def execSub (rd rs1 rs2 : RegIdx) (s : State) : Host.Outcome State Fault Refusal :=
  writeResult subWord (regPair s rs1 rs2) rd s

/-- SLL (R113). -/
def execSll (rd rs1 rs2 : RegIdx) (s : State) : Host.Outcome State Fault Refusal :=
  writeResult shiftLeft (regPair s rs1 rs2) rd s

/-- SLT (R114). -/
def execSlt (rd rs1 rs2 : RegIdx) (s : State) : Host.Outcome State Fault Refusal :=
  writeResult setLess (regPair s rs1 rs2) rd s

/-- SLTU (R115). -/
def execSltu (rd rs1 rs2 : RegIdx) (s : State) : Host.Outcome State Fault Refusal :=
  writeResult setLessUnsigned (regPair s rs1 rs2) rd s

/-- XOR (R116). -/
def execXor (rd rs1 rs2 : RegIdx) (s : State) : Host.Outcome State Fault Refusal :=
  writeResult xorWord (regPair s rs1 rs2) rd s

/-- SRL (R117). -/
def execSrl (rd rs1 rs2 : RegIdx) (s : State) : Host.Outcome State Fault Refusal :=
  writeResult shiftRight (regPair s rs1 rs2) rd s

/-- SRA (R118). -/
def execSra (rd rs1 rs2 : RegIdx) (s : State) : Host.Outcome State Fault Refusal :=
  writeResult shiftRightArith (regPair s rs1 rs2) rd s

/-- OR (R119). -/
def execOr (rd rs1 rs2 : RegIdx) (s : State) : Host.Outcome State Fault Refusal :=
  writeResult orWord (regPair s rs1 rs2) rd s

/-- AND (R120). -/
def execAnd (rd rs1 rs2 : RegIdx) (s : State) : Host.Outcome State Fault Refusal :=
  writeResult andWord (regPair s rs1 rs2) rd s

end Sys2Proof.Machine
end

