-- ==== Sys2Proof/Machine/IType.lean ====
section
/-! DEFINITION. The I unit (42_i_type.md): `x[rd] <- x[rs1] op imm`, with the sign-extended imm_I, or shamt for the three shifts; pc + 4. -/

namespace Sys2Proof.Machine

/-- ADDI (R131). -/
def execAddi (rd rs1 : RegIdx) (imm : BitVec 12) (s : State) : Host.Outcome State Fault Refusal :=
  writeResult addWord (regImm s rs1 imm) rd s

/-- SLTI (R132). -/
def execSlti (rd rs1 : RegIdx) (imm : BitVec 12) (s : State) : Host.Outcome State Fault Refusal :=
  writeResult setLess (regImm s rs1 imm) rd s

/-- SLTIU (R133). -/
def execSltiu (rd rs1 : RegIdx) (imm : BitVec 12) (s : State) : Host.Outcome State Fault Refusal :=
  writeResult setLessUnsigned (regImm s rs1 imm) rd s

/-- XORI (R134). -/
def execXori (rd rs1 : RegIdx) (imm : BitVec 12) (s : State) : Host.Outcome State Fault Refusal :=
  writeResult xorWord (regImm s rs1 imm) rd s

/-- ORI (R135). -/
def execOri (rd rs1 : RegIdx) (imm : BitVec 12) (s : State) : Host.Outcome State Fault Refusal :=
  writeResult orWord (regImm s rs1 imm) rd s

/-- ANDI (R136). -/
def execAndi (rd rs1 : RegIdx) (imm : BitVec 12) (s : State) : Host.Outcome State Fault Refusal :=
  writeResult andWord (regImm s rs1 imm) rd s

/-- SLLI (R137). -/
def execSlli (rd rs1 : RegIdx) (shamt : BitVec 5) (s : State) : Host.Outcome State Fault Refusal :=
  writeResult shiftLeft (regShamt s rs1 shamt) rd s

/-- SRLI (R138). -/
def execSrli (rd rs1 : RegIdx) (shamt : BitVec 5) (s : State) : Host.Outcome State Fault Refusal :=
  writeResult shiftRight (regShamt s rs1 shamt) rd s

/-- SRAI (R139). -/
def execSrai (rd rs1 : RegIdx) (shamt : BitVec 5) (s : State) : Host.Outcome State Fault Refusal :=
  writeResult shiftRightArith (regShamt s rs1 shamt) rd s

end Sys2Proof.Machine
end

