-- ==== Sys2Proof/Machine/Jumps.lean ====
section
/-! DEFINITION. The J unit (47_jumps.md): the return address into rd and the pc to the target, which is not advanced and not checked
(R185, R188). -/

namespace Sys2Proof.Machine

/-- The template of a jump (R185). -/
def jumpTo (target : Word) (rd : RegIdx) (s : State) : Host.Outcome State Fault Refusal :=
  commit { wr := some (rd, returnAddress s), st := none, next := target } s

/-- JAL (R186). -/
def execJal (rd : RegIdx) (imm : BitVec 21) (s : State) : Host.Outcome State Fault Refusal :=
  jumpTo (jalTarget s imm) rd s

/-- JALR (R187): `x[rs1]` is read before `x[rd]` is written (D8). -/
def execJalr (rd rs1 : RegIdx) (imm : BitVec 12) (s : State) : Host.Outcome State Fault Refusal :=
  jumpTo (jalrTarget s rs1 imm) rd s

end Sys2Proof.Machine
end

