-- ==== Sys2Proof/Machine/Loads.lean ====
section
/-! DEFINITION. The L unit (43_loads.md): the effective address, one read through the accessor, the extended value into rd, pc + 4. The
read happens, and may fault, with rd = 0 too (R150). -/

namespace Sys2Proof.Machine

/-- `sext_8` of the byte read (R151). -/
def signExtendByte (v : Word) : Word := (v.extractLsb' 0 8).signExtend 32

/-- `sext_16` of the halfword read (R152). -/
def signExtendHalf (v : Word) : Word := (v.extractLsb' 0 16).signExtend 32

/-- `zext_8` of the byte read (R154). -/
def zeroExtendByte (v : Word) : Word := (v.extractLsb' 0 8).setWidth 32

/-- `zext_16` of the halfword read (R155). -/
def zeroExtendHalf (v : Word) : Word := (v.extractLsb' 0 16).setWidth 32

/-- The word as it was read (R153: "no extension"). -/
def wholeWord (v : Word) : Word := v

/-- The template of a load (R150). -/
def loadInto (w : AccessWidth) (extend : Word → Word) (rd rs1 : RegIdx) (imm : BitVec 12) (s : State) :
    Host.Outcome State Fault Refusal :=
  onLegalConfig s
    (match memRead s.cfg s.mem .load (effectiveAddress s rs1 imm) w with
    | .error f => .fault f
    | .ok v => commit (writeEffect s rd (extend v)) s)

/-- LB (R151). -/
def execLb (rd rs1 : RegIdx) (imm : BitVec 12) (s : State) : Host.Outcome State Fault Refusal :=
  loadInto .byte signExtendByte rd rs1 imm s

/-- LH (R152). -/
def execLh (rd rs1 : RegIdx) (imm : BitVec 12) (s : State) : Host.Outcome State Fault Refusal :=
  loadInto .half signExtendHalf rd rs1 imm s

/-- LW (R153). -/
def execLw (rd rs1 : RegIdx) (imm : BitVec 12) (s : State) : Host.Outcome State Fault Refusal :=
  loadInto .word wholeWord rd rs1 imm s

/-- LBU (R154). -/
def execLbu (rd rs1 : RegIdx) (imm : BitVec 12) (s : State) : Host.Outcome State Fault Refusal :=
  loadInto .byte zeroExtendByte rd rs1 imm s

/-- LHU (R155). -/
def execLhu (rd rs1 : RegIdx) (imm : BitVec 12) (s : State) : Host.Outcome State Fault Refusal :=
  loadInto .half zeroExtendHalf rd rs1 imm s

end Sys2Proof.Machine
end

