-- ==== Sys2Proof/Machine/MulDiv.lean ====
section
/-! DEFINITION. The multiply/divide unit (49_muldiv.md), of a block with `EXT_M`: exact integer results narrowed to 32 bits; division by
zero and signed overflow give the results R205 to R208 name, and nothing faults (R200). -/

namespace Sys2Proof.Machine

/-- `trunc_32(s(a) * s(b))` (R201). -/
def mulLow (a b : Word) : Word := BitVec.ofInt 32 (a.toInt * b.toInt)

/-- Bits 63:32 of an exact product. -/
def highHalf (p : Int) : Word := (BitVec.ofInt 64 p).extractLsb' 32 32

/-- `(s(a) * s(b))[63:32]` (R202). -/
def mulHigh (a b : Word) : Word := highHalf (a.toInt * b.toInt)

/-- `(s(a) * u(b))[63:32]` (R203; D22: rs1 is the signed operand). -/
def mulHighSignedUnsigned (a b : Word) : Word := highHalf (a.toInt * (b.toNat : Int))

/-- `(u(a) * u(b))[63:32]` (R204). -/
def mulHighUnsigned (a b : Word) : Word := highHalf ((a.toNat : Int) * (b.toNat : Int))

/-- The overflow pair of signed division, the most negative value by -1. -/
def divOverflows (a b : Word) : Bool := decide (a = 0x80000000#32) && decide (b = 0xFFFFFFFF#32)

/-- The signed quotient (R205): all ones on divisor 0, 0x80000000 on overflow (D12), else truncated toward zero (D23). -/
def divSigned (a b : Word) : Word :=
  if b = 0#32 then 0xFFFFFFFF#32
  else if divOverflows a b then 0x80000000#32
  else BitVec.ofInt 32 (a.toInt.tdiv b.toInt)

/-- The unsigned quotient (R206). -/
def divUnsigned (a b : Word) : Word :=
  if b = 0#32 then 0xFFFFFFFF#32 else BitVec.ofNat 32 (a.toNat / b.toNat)

/-- The signed remainder (R207): the dividend on divisor 0, 0 on overflow (D12), else of the dividend's sign (D23). -/
def remSigned (a b : Word) : Word :=
  if b = 0#32 then a
  else if divOverflows a b then 0#32
  else BitVec.ofInt 32 (a.toInt - b.toInt * a.toInt.tdiv b.toInt)

/-- The unsigned remainder (R208). -/
def remUnsigned (a b : Word) : Word := if b = 0#32 then a else BitVec.ofNat 32 (a.toNat % b.toNat)

/-- MUL (R201). -/
def execMul (rd rs1 rs2 : RegIdx) (s : State) : Host.Outcome State Fault Refusal :=
  writeResult mulLow (regPair s rs1 rs2) rd s

/-- MULH (R202). -/
def execMulh (rd rs1 rs2 : RegIdx) (s : State) : Host.Outcome State Fault Refusal :=
  writeResult mulHigh (regPair s rs1 rs2) rd s

/-- MULHSU (R203). -/
def execMulhsu (rd rs1 rs2 : RegIdx) (s : State) : Host.Outcome State Fault Refusal :=
  writeResult mulHighSignedUnsigned (regPair s rs1 rs2) rd s

/-- MULHU (R204). -/
def execMulhu (rd rs1 rs2 : RegIdx) (s : State) : Host.Outcome State Fault Refusal :=
  writeResult mulHighUnsigned (regPair s rs1 rs2) rd s

/-- DIV (R205). -/
def execDiv (rd rs1 rs2 : RegIdx) (s : State) : Host.Outcome State Fault Refusal :=
  writeResult divSigned (regPair s rs1 rs2) rd s

/-- DIVU (R206). -/
def execDivu (rd rs1 rs2 : RegIdx) (s : State) : Host.Outcome State Fault Refusal :=
  writeResult divUnsigned (regPair s rs1 rs2) rd s

/-- REM (R207). -/
def execRem (rd rs1 rs2 : RegIdx) (s : State) : Host.Outcome State Fault Refusal :=
  writeResult remSigned (regPair s rs1 rs2) rd s

/-- REMU (R208). -/
def execRemu (rd rs1 rs2 : RegIdx) (s : State) : Host.Outcome State Fault Refusal :=
  writeResult remUnsigned (regPair s rs1 rs2) rd s

end Sys2Proof.Machine
end

