-- ==== Sys2Proof/Machine/Stores.lean ====
section
/-! DEFINITION. The S unit (44_stores.md): the effective address, and the low 8, 16 or 32 bits of `x[rs2]` through the accessor; no register,
pc + 4. -/

namespace Sys2Proof.Machine

/-- The template of a store (R160). -/
def storeFrom (w : AccessWidth) (rs1 rs2 : RegIdx) (imm : BitVec 12) (s : State) : Host.Outcome State Fault Refusal :=
  commit { wr := none, st := some (effectiveAddress s rs1 imm, w, s.readReg rs2), next := s.pc + 4#32 } s

/-- SB (R161). -/
def execSb (rs1 rs2 : RegIdx) (imm : BitVec 12) (s : State) : Host.Outcome State Fault Refusal :=
  storeFrom .byte rs1 rs2 imm s

/-- SH (R162). -/
def execSh (rs1 rs2 : RegIdx) (imm : BitVec 12) (s : State) : Host.Outcome State Fault Refusal :=
  storeFrom .half rs1 rs2 imm s

/-- SW (R163). -/
def execSw (rs1 rs2 : RegIdx) (imm : BitVec 12) (s : State) : Host.Outcome State Fault Refusal :=
  storeFrom .word rs1 rs2 imm s

end Sys2Proof.Machine
end

