-- ==== Sys2Proof/Machine/UpperImm.lean ====
section
/-! DEFINITION. The U unit (46_upper_imm.md): the U-immediate, or the instruction's own address plus it, into rd; pc + 4. -/

namespace Sys2Proof.Machine

/-- LUI (R181). -/
def execLui (rd : RegIdx) (imm : BitVec 20) (s : State) : Host.Outcome State Fault Refusal :=
  commit (writeEffect s rd (upperImm imm)) s

/-- AUIPC (R182): the sum with the pc "at the start of the current instruction". -/
def execAuipc (rd : RegIdx) (imm : BitVec 20) (s : State) : Host.Outcome State Fault Refusal :=
  commit (writeEffect s rd (s.pc + upperImm imm)) s

end Sys2Proof.Machine
end

