-- ==== Sys2Proof/Machine/Driver.lean ====
section
/-! DEFINITION. The step driver and the two other entry points (40_step_driver.md): fetch, decode, dispatch; `init`;
`valid_step`; the state a transaction leaves; and the host's placing of a program in memory (R103). Step.lean names the
step; all of its body stands here. -/

namespace Sys2Proof.Machine

/-- FETCH: `inst := MemRead(pc, 4)` at any pc (20_memory.md R49). -/
def fetchWord (s : State) : Except Fault Word := memRead s.cfg s.mem .fetch s.pc .word

/-- DISPATCH: the instruction's meaning, or the no-op of an undefined encoding (48_fence_and_undefined.md R192). -/
def dispatch (d : Decoded) (s : State) : Host.Outcome State Fault Refusal :=
  match d with
  | .instr i => exec i s
  | .undefined _ => execUndefined s

/-- Whether `step` or `valid_step` has an outcome of its own: the configuration is one the model takes (00_scope.md R9), and
no fault has been raised (40_step_driver.md R94). -/
def withHart {α : Type} (s : State) (go : Host.Outcome α Fault Refusal) : Host.Outcome α Fault Refusal :=
  onLegalConfig s
    (match s.faultMark with
    | some f => .fault f
    | none => go)

/-- `step()` (R92): fetch, decode, dispatch and commit. The termination predicate is not evaluated (R99, R104). -/
def stepHart (s : State) : Host.Outcome State Fault Refusal :=
  withHart s
    (match fetchWord s with
    | .error f => .fault f
    | .ok w => dispatch (decode s.cfg.extM w) s)

/-- The state a `step` leaves behind: the next state, or the state before it with the fault mark set
(60_exceptions.md R224); a refused step leaves the state as it was. -/
def stateAfter (s : State) (o : Host.Outcome State Fault Refusal) : State :=
  match o with
  | .next t => t
  | .fault f => raiseFault f s
  | .refused _ => s

/-- The state after `init` (R102): `pc` and `x[2]` written, nothing else. -/
def State.initialised (s : State) : State :=
  { s with pc := s.cfg.memBase, regs := writeBack (some (2, BitVec.ofNat 32 s.cfg.memEnd)) s.regs }

/-- `init()` (R102); on a configuration outside 00_scope.md R9 it is refused, so `MEM_BASE + MEM_SIZE` is exact. -/
def initHart (s : State) : Host.Outcome State Fault Refusal := onLegalConfig s (.next s.initialised)

/-- `valid_step()` (R100): the bound on the pc first, then whether the word at the pc is non-zero. Its read raises
`MemFault(pc, 4)` like a fetch (60_exceptions.md R221; the kind `fetch` is DEDUCED, log entry 7). It writes nothing (R99);
whether a fault of its read sets the mark is settled by its caller, `hostRun` (log entry 21). -/
def validStep (s : State) : Host.Outcome Bool Fault Refusal :=
  withHart s
    (if s.pc.toNat < s.cfg.memEnd then
      match fetchWord s with
      | .error f => .fault f
      | .ok w => .next (w != 0#32)
    else .next false)

/-- The memory with a list of bytes written from an address on. -/
def Memory.writeList (m : Memory) (a : Nat) : List Byte → Memory
  | [] => m
  | v :: rest => Memory.writeList (m.write a v) (a + 1) rest

/-- The host's loading of a raw image at buffer offset 0 (R103, 70_reset_and_hazards.md R241); an image that does not fit
is refused, and so is every load on a configuration outside 00_scope.md R9. -/
def loadImage (image : List Byte) (s : State) : Host.Outcome State Fault Refusal :=
  onLegalConfig s
    (if image.length ≤ s.cfg.memSize then .next (s.withMem (s.mem.writeList s.cfg.memBase.toNat image))
    else .refused .imageTooLarge)

/-- A word stored where the next step fetches; nothing else changes. At a pc outside the window there is no such place, and
on a configuration outside 00_scope.md R9 there is no machine: there nothing changes (log entry 20). -/
def placeWord (s : State) (w : Word) : State :=
  if s.cfg.wf then
    match memWrite s.cfg s.mem s.pc .word w with
    | .ok m => s.withMem m
    | .error _ => s
  else s

end Sys2Proof.Machine
end

