-- ==== Sys2Proof/Machine/Step.lean ====
section
/-! DEFINITION. The step of the machine (40_step_driver.md R92), by the driver's name for it, and the placing of one word
where the next step fetches. -/

namespace Sys2Proof.Machine

/-- One `step` call: one instruction. -/
def step (s : State) : Host.Outcome State Fault Refusal := stepHart s

/-- `s` with an instruction's word stored at its pc (all bits above `nbits` zero), so that the next step runs it. It
stands for the host's loading of a program (R103, log entry 6). -/
def State.withFetchWord (s : State) (nbits w : Nat) : State := placeWord s (BitVec.ofNat 32 (w % 2 ^ nbits))

end Sys2Proof.Machine
end

