-- ==== Sys2Proof/Machine/HostLoop.lean ====
section
/-! DEFINITION. A run as the host makes it (40_step_driver.md R105): `valid_step` before every `step`, for at most a given
number of steps, since the host "decides how many steps to execute" (R103). -/

namespace Sys2Proof.Machine

/-- How a run stands when the host stops (R105). -/
inductive RunEnd where
  /-- `valid_step` returned false: the final state. -/
  | halted (final : State)
  /-- `MemFault` was raised, by a step or by the read of `valid_step`: not final; the state carries the fault mark. -/
  | faulted (marked : State)
  /-- The host stopped between two steps: a state, not an outcome of the block. -/
  | stopped (between : State)
  /-- The model refuses the configuration (00_scope.md R9). -/
  | refused (why : Refusal)
deriving DecidableEq, Repr

/-- The driving loop, for at most `n` steps. Where the read of `valid_step` raises `MemFault`, the state the run ends in
carries the mark: DESIGN CHOICE, unsafe for a claim about the mark (log entry 21), since R99 says that `valid_step` changes
nothing and R94 that the state after a `MemFault` keeps its mark. -/
def hostRun : Nat → State → RunEnd
  | 0, s => .stopped s
  | n + 1, s =>
    match validStep s with
    | .fault f => .faulted (raiseFault f s)
    | .refused r => .refused r
    | .next false => .halted s
    | .next true =>
      match step s with
      | .next t => hostRun n t
      | .fault f => .faulted (raiseFault f s)
      | .refused r => .refused r

/-- The start of a run: the image is loaded, then `init` is called once (R241). -/
def boot (image : List Byte) (s : State) : Host.Outcome State Fault Refusal :=
  match loadImage image s with
  | .next t => initHart t
  | .fault f => .fault f
  | .refused r => .refused r

end Sys2Proof.Machine
end

