-- ==== Sys2Proof/Safety.lean ====
section
/-! DEFINITION. The terms the statements use: what a state must be for a step to have an outcome of its own, the
invariant every step keeps, what it means that a step wrote one register, moved the pc, or stored bytes, and nothing
else; and which operand of an instruction comes from which field of its word. -/

namespace Sys2Proof.Machine

/-- The parameters are ones the model takes (00_scope.md R9) and no fault has been raised (40_step_driver.md R94). -/
abbrev State.Running (s : State) : Prop := s.cfg.wf = true ∧ s.faultMark = none

/-- All bytes of an access lie in the memory window (20_memory.md R43, R46). -/
abbrev State.Holds (s : State) (addr : Word) (n : Nat) : Prop := ∀ k, k < n → inWindow s.cfg (addr.toNat + k) = true

/-- Every listed cell lies in the window: outside it nothing is held (20_memory.md R41). -/
def cellsInWindow (c : Config) (m : Memory) : Bool := m.cells.all (fun cell => inWindow c cell.1)

/-- The invariant: legal parameters (R9), memory in its canonical form and inside the window (R31, R41), slot 0 of the
register file zero (R34: "x[0] = 0 between steps"), no fault mark. -/
abbrev State.Inv (s : State) : Prop :=
  s.cfg.wf = true ∧ s.mem.wf = true ∧ cellsInWindow s.cfg s.mem = true ∧ s.regs[0] = 0#32 ∧ s.faultMark = none

/-- From `s` to `t` all that changed is: `x[rd]` is `v` (0 where rd is 0), slot 0 is zero, the pc is `next`. -/
structure RegWritten (s t : State) (rd : RegIdx) (v next : Word) : Prop where
  result : t.readReg rd = if rd = 0 then 0#32 else v
  otherRegs : ∀ r, r ≠ rd → t.readReg r = s.readReg r
  slot0 : t.regs[0] = 0#32
  nextPc : t.pc = next
  memory : ∀ a, t.mem.read a = s.mem.read a
  mark : t.faultMark = s.faultMark
  params : t.cfg = s.cfg

/-- From `s` to `t` all that changed is: slot 0 is zero, the pc is `next`. -/
structure PcMoved (s t : State) (next : Word) : Prop where
  regs : ∀ r, t.readReg r = s.readReg r
  slot0 : t.regs[0] = 0#32
  nextPc : t.pc = next
  memory : ∀ a, t.mem.read a = s.mem.read a
  mark : t.faultMark = s.faultMark
  params : t.cfg = s.cfg

/-- From `s` to `t` all that changed is: the `n` bytes from `addr` on hold the low bytes of `v`, lowest address first;
slot 0 is zero; the pc is `next`. -/
structure BytesStored (s t : State) (addr : Word) (n : Nat) (v next : Word) : Prop where
  stored : ∀ k, k < n → t.mem.read (addr.toNat + k) = v.extractLsb' (8 * k) 8
  otherBytes : ∀ a, a < addr.toNat ∨ addr.toNat + n ≤ a → t.mem.read a = s.mem.read a
  regs : ∀ r, t.readReg r = s.readReg r
  slot0 : t.regs[0] = 0#32
  nextPc : t.pc = next
  mark : t.faultMark = s.faultMark
  params : t.cfg = s.cfg

/-- The operands of an instruction are the fields of the word, each from its place (30_encoding.md R75 to R80). -/
def takesFieldsOf (w : Word) : Instr → Prop
  | .add rd rs1 rs2 => rd = rdField w ∧ rs1 = rs1Field w ∧ rs2 = rs2Field w
  | .sub rd rs1 rs2 => rd = rdField w ∧ rs1 = rs1Field w ∧ rs2 = rs2Field w
  | .sll rd rs1 rs2 => rd = rdField w ∧ rs1 = rs1Field w ∧ rs2 = rs2Field w
  | .slt rd rs1 rs2 => rd = rdField w ∧ rs1 = rs1Field w ∧ rs2 = rs2Field w
  | .sltu rd rs1 rs2 => rd = rdField w ∧ rs1 = rs1Field w ∧ rs2 = rs2Field w
  | .xor rd rs1 rs2 => rd = rdField w ∧ rs1 = rs1Field w ∧ rs2 = rs2Field w
  | .srl rd rs1 rs2 => rd = rdField w ∧ rs1 = rs1Field w ∧ rs2 = rs2Field w
  | .sra rd rs1 rs2 => rd = rdField w ∧ rs1 = rs1Field w ∧ rs2 = rs2Field w
  | .or rd rs1 rs2 => rd = rdField w ∧ rs1 = rs1Field w ∧ rs2 = rs2Field w
  | .and rd rs1 rs2 => rd = rdField w ∧ rs1 = rs1Field w ∧ rs2 = rs2Field w
  | .addi rd rs1 imm => rd = rdField w ∧ rs1 = rs1Field w ∧ imm = immIField w
  | .slti rd rs1 imm => rd = rdField w ∧ rs1 = rs1Field w ∧ imm = immIField w
  | .sltiu rd rs1 imm => rd = rdField w ∧ rs1 = rs1Field w ∧ imm = immIField w
  | .xori rd rs1 imm => rd = rdField w ∧ rs1 = rs1Field w ∧ imm = immIField w
  | .ori rd rs1 imm => rd = rdField w ∧ rs1 = rs1Field w ∧ imm = immIField w
  | .andi rd rs1 imm => rd = rdField w ∧ rs1 = rs1Field w ∧ imm = immIField w
  | .slli rd rs1 shamt => rd = rdField w ∧ rs1 = rs1Field w ∧ shamt = shamtField w
  | .srli rd rs1 shamt => rd = rdField w ∧ rs1 = rs1Field w ∧ shamt = shamtField w
  | .srai rd rs1 shamt => rd = rdField w ∧ rs1 = rs1Field w ∧ shamt = shamtField w
  | .lb rd rs1 imm => rd = rdField w ∧ rs1 = rs1Field w ∧ imm = immIField w
  | .lh rd rs1 imm => rd = rdField w ∧ rs1 = rs1Field w ∧ imm = immIField w
  | .lw rd rs1 imm => rd = rdField w ∧ rs1 = rs1Field w ∧ imm = immIField w
  | .lbu rd rs1 imm => rd = rdField w ∧ rs1 = rs1Field w ∧ imm = immIField w
  | .lhu rd rs1 imm => rd = rdField w ∧ rs1 = rs1Field w ∧ imm = immIField w
  | .sb rs1 rs2 imm => rs1 = rs1Field w ∧ rs2 = rs2Field w ∧ imm = immSField w
  | .sh rs1 rs2 imm => rs1 = rs1Field w ∧ rs2 = rs2Field w ∧ imm = immSField w
  | .sw rs1 rs2 imm => rs1 = rs1Field w ∧ rs2 = rs2Field w ∧ imm = immSField w
  | .beq rs1 rs2 imm => rs1 = rs1Field w ∧ rs2 = rs2Field w ∧ imm = immBField w
  | .bne rs1 rs2 imm => rs1 = rs1Field w ∧ rs2 = rs2Field w ∧ imm = immBField w
  | .blt rs1 rs2 imm => rs1 = rs1Field w ∧ rs2 = rs2Field w ∧ imm = immBField w
  | .bge rs1 rs2 imm => rs1 = rs1Field w ∧ rs2 = rs2Field w ∧ imm = immBField w
  | .bltu rs1 rs2 imm => rs1 = rs1Field w ∧ rs2 = rs2Field w ∧ imm = immBField w
  | .bgeu rs1 rs2 imm => rs1 = rs1Field w ∧ rs2 = rs2Field w ∧ imm = immBField w
  | .lui rd imm => rd = rdField w ∧ imm = immUField w
  | .auipc rd imm => rd = rdField w ∧ imm = immUField w
  | .jal rd imm => rd = rdField w ∧ imm = immJField w
  | .jalr rd rs1 imm => rd = rdField w ∧ rs1 = rs1Field w ∧ imm = immIField w
  | .fence => True
  | .mul rd rs1 rs2 => rd = rdField w ∧ rs1 = rs1Field w ∧ rs2 = rs2Field w
  | .mulh rd rs1 rs2 => rd = rdField w ∧ rs1 = rs1Field w ∧ rs2 = rs2Field w
  | .mulhsu rd rs1 rs2 => rd = rdField w ∧ rs1 = rs1Field w ∧ rs2 = rs2Field w
  | .mulhu rd rs1 rs2 => rd = rdField w ∧ rs1 = rs1Field w ∧ rs2 = rs2Field w
  | .div rd rs1 rs2 => rd = rdField w ∧ rs1 = rs1Field w ∧ rs2 = rs2Field w
  | .divu rd rs1 rs2 => rd = rdField w ∧ rs1 = rs1Field w ∧ rs2 = rs2Field w
  | .rem rd rs1 rs2 => rd = rdField w ∧ rs1 = rs1Field w ∧ rs2 = rs2Field w
  | .remu rd rs1 rs2 => rd = rdField w ∧ rs1 = rs1Field w ∧ rs2 = rs2Field w

/-- The memory access an instruction makes: its kind, effective address and width. Only loads and stores make one
(20_memory.md R50, 60_exceptions.md R223). -/
def accessOf (s : State) : Instr → Option (AccessKind × Word × AccessWidth)
  | .add .. => none
  | .sub .. => none
  | .sll .. => none
  | .slt .. => none
  | .sltu .. => none
  | .xor .. => none
  | .srl .. => none
  | .sra .. => none
  | .or .. => none
  | .and .. => none
  | .addi .. => none
  | .slti .. => none
  | .sltiu .. => none
  | .xori .. => none
  | .ori .. => none
  | .andi .. => none
  | .slli .. => none
  | .srli .. => none
  | .srai .. => none
  | .lb _ rs1 imm => some (.load, effectiveAddress s rs1 imm, .byte)
  | .lh _ rs1 imm => some (.load, effectiveAddress s rs1 imm, .half)
  | .lw _ rs1 imm => some (.load, effectiveAddress s rs1 imm, .word)
  | .lbu _ rs1 imm => some (.load, effectiveAddress s rs1 imm, .byte)
  | .lhu _ rs1 imm => some (.load, effectiveAddress s rs1 imm, .half)
  | .sb rs1 _ imm => some (.store, effectiveAddress s rs1 imm, .byte)
  | .sh rs1 _ imm => some (.store, effectiveAddress s rs1 imm, .half)
  | .sw rs1 _ imm => some (.store, effectiveAddress s rs1 imm, .word)
  | .beq .. => none
  | .bne .. => none
  | .blt .. => none
  | .bge .. => none
  | .bltu .. => none
  | .bgeu .. => none
  | .lui .. => none
  | .auipc .. => none
  | .jal .. => none
  | .jalr .. => none
  | .fence => none
  | .mul .. => none
  | .mulh .. => none
  | .mulhsu .. => none
  | .mulhu .. => none
  | .div .. => none
  | .divu .. => none
  | .rem .. => none
  | .remu .. => none

/-- The register an instruction may write (10_state.md R23); none for stores, branches and FENCE. -/
def destOf : Instr → Option RegIdx
  | .add rd _ _ => some rd
  | .sub rd _ _ => some rd
  | .sll rd _ _ => some rd
  | .slt rd _ _ => some rd
  | .sltu rd _ _ => some rd
  | .xor rd _ _ => some rd
  | .srl rd _ _ => some rd
  | .sra rd _ _ => some rd
  | .or rd _ _ => some rd
  | .and rd _ _ => some rd
  | .addi rd _ _ => some rd
  | .slti rd _ _ => some rd
  | .sltiu rd _ _ => some rd
  | .xori rd _ _ => some rd
  | .ori rd _ _ => some rd
  | .andi rd _ _ => some rd
  | .slli rd _ _ => some rd
  | .srli rd _ _ => some rd
  | .srai rd _ _ => some rd
  | .lb rd _ _ => some rd
  | .lh rd _ _ => some rd
  | .lw rd _ _ => some rd
  | .lbu rd _ _ => some rd
  | .lhu rd _ _ => some rd
  | .sb .. => none
  | .sh .. => none
  | .sw .. => none
  | .beq .. => none
  | .bne .. => none
  | .blt .. => none
  | .bge .. => none
  | .bltu .. => none
  | .bgeu .. => none
  | .lui rd _ => some rd
  | .auipc rd _ => some rd
  | .jal rd _ => some rd
  | .jalr rd _ _ => some rd
  | .fence => none
  | .mul rd _ _ => some rd
  | .mulh rd _ _ => some rd
  | .mulhsu rd _ _ => some rd
  | .mulhu rd _ _ => some rd
  | .div rd _ _ => some rd
  | .divu rd _ _ => some rd
  | .rem rd _ _ => some rd
  | .remu rd _ _ => some rd

end Sys2Proof.Machine
end

