-- ==== Sys2Proof/Certificates/Slice0/Obligations.lean ====
section
/-! DEFINITION. The statements for the provers, one `def Obligations.<Name> : Prop` each. They speak of the machine, in
every state, for every configuration and every operand, unless a hypothesis says otherwise. `RegWritten`, `PcMoved` and
`BytesStored` (Safety.lean) each say everything an instruction changed and everything it left alone. -/

open Sys2Proof Sys2Proof.Machine

/-! ## Encoding and decoding (30_encoding.md) -/

/-- Words written out in the spec's rules decode to the instructions the spec says they are (R111, R112, R131, R137,
R153, R163, R172, R181, R182, R186, R187, R190, R192, R201). The funct3 values are the spec's general knowledge (D17). -/
def Obligations.SpecWordsDecodeAsTheSpecSays : Prop :=
  decode true 0x002081B3#32 = .instr (.add 3 1 2) ∧ decode true 0x402081B3#32 = .instr (.sub 3 1 2) ∧
  decode true 0x00500093#32 = .instr (.addi 1 0 5#12) ∧ decode true 0x00409193#32 = .instr (.slli 3 1 4#5) ∧
  decode true 0xFFC0A183#32 = .instr (.lw 3 1 0xFFC#12) ∧ decode true 0xFE20AE23#32 = .instr (.sw 1 2 0xFFC#12) ∧
  decode true 0xFE209CE3#32 = .instr (.bne 1 2 0x1FF8#13) ∧ decode true 0x123450B7#32 = .instr (.lui 1 0x12345#20) ∧
  decode true 0x00001097#32 = .instr (.auipc 1 1#20) ∧ decode true 0x008000EF#32 = .instr (.jal 1 8#21) ∧
  decode true 0x004280E7#32 = .instr (.jalr 1 5 4#12) ∧ decode true 0x0FF0000F#32 = .instr .fence ∧
  decode true 0x022081B3#32 = .instr (.mul 3 1 2) ∧ decode false 0x022081B3#32 = .instr (.add 3 1 2) ∧
  decode true 0x00003003#32 = .undefined .loadFunct3 ∧ decode true 0x00000000#32 = .undefined .opcode

/-- R62 to R67: every field of every word is the number its bits make, and `inst[30]` is bit 5 of funct7. -/
def Obligations.FieldsAreTheNumbersOfTheirBits : Prop :=
  ∀ w : Word,
    (fieldsOf w).opcode.toNat = w.toNat % 2 ^ 7 ∧
    (fieldsOf w).rd.val = w.toNat / 2 ^ 7 % 2 ^ 5 ∧
    (fieldsOf w).funct3.toNat = w.toNat / 2 ^ 12 % 2 ^ 3 ∧
    (fieldsOf w).rs1.val = w.toNat / 2 ^ 15 % 2 ^ 5 ∧
    (fieldsOf w).rs2.val = w.toNat / 2 ^ 20 % 2 ^ 5 ∧
    (fieldsOf w).funct7.toNat = w.toNat / 2 ^ 25 ∧
    (fieldsOf w).funct7.getLsbD 5 = w.getLsbD 30 ∧
    altBit w = w.getLsbD 30

/-- Sections 1 and 2 of 30_encoding.md: that shamt is the number in the rs2 field (R68, section 1), and bit by bit where
each bit of each immediate comes from (section 2). -/
def Obligations.ImmediatesAreAssembledFromTheirBits : Prop :=
  ∀ w : Word,
    (fieldsOf w).shamt.toNat = (fieldsOf w).rs2.val ∧
    ∀ i, i < 32 →
      (fieldsOf w).immI.getLsbD i = (if i < 11 then w.getLsbD (i + 20) else w.getLsbD 31) ∧
      (fieldsOf w).immS.getLsbD i =
        (if i < 5 then w.getLsbD (i + 7) else if i < 11 then w.getLsbD (i + 20) else w.getLsbD 31) ∧
      (fieldsOf w).immB.getLsbD i =
        (if i = 0 then false else if i < 5 then w.getLsbD (i + 7) else if i < 11 then w.getLsbD (i + 20)
         else if i = 11 then w.getLsbD 7 else w.getLsbD 31) ∧
      (fieldsOf w).immJ.getLsbD i =
        (if i = 0 then false else if i < 11 then w.getLsbD (i + 20) else if i = 11 then w.getLsbD 20
         else if i < 20 then w.getLsbD i else w.getLsbD 31) ∧
      (fieldsOf w).immU.getLsbD i = (if i < 12 then false else w.getLsbD i)

/-- The decoder is the opcode table: the instruction of a word is the first row of spec/opcode_table.json that covers it,
the multiply/divide rows first and only with `EXT_M`; a word no row covers is undefined (R83). Rests on the spec's
general-knowledge funct3 and funct7 values (D4, D17). -/
def Obligations.DecodeFollowsTheOpcodeTable : Prop :=
  ∀ (extM : Bool) (w : Word),
    (decode extM w).mnemonic? = (opcodeTable.find? (fun r => r.covers extM w)).map OpcodeRow.mnemonic

/-- Every operand of a decoded instruction is the field of the word its format names (R75 to R80). -/
def Obligations.DecodedOperandsAreTheFieldsOfTheWord : Prop :=
  ∀ (extM : Bool) (w : Word) (i : Instr), decode extM w = .instr i → takesFieldsOf w i

/-- The decoder answers well-formed instructions only: even branch and JAL offsets, and multiply/divide instructions only
in a block that has the unit. -/
def Obligations.DecodedInstructionsAreWellFormed : Prop :=
  ∀ (extM : Bool) (w : Word) (i : Instr), decode extM w = .instr i → i.wf extM = true

/-- Encoding a well-formed instruction and decoding the word gives the instruction back, for all 46 and every operand. -/
def Obligations.DecodeOfEncodeIsTheInstruction : Prop :=
  ∀ (extM : Bool) (i : Instr), i.wf extM = true → decode extM (encode i) = .instr i

/-- The undefined encodings are exactly those R85 lists, by opcode and by the funct3 of loads, stores and branches. Which
funct3 values are undefined is the spec's general knowledge (D17, G1). -/
def Obligations.UndefinedWordsAreExactlyTheListedOnes : Prop :=
  ∀ (extM : Bool) (w : Word),
    (∃ why, decode extM w = .undefined why) ↔
      (w.toNat % 2 ^ 7 ∉ [0x33, 0x13, 0x03, 0x23, 0x63, 0x37, 0x17, 0x6F, 0x67, 0x0F]) ∨
      (w.toNat % 2 ^ 7 = 0x03 ∧ w.toNat / 2 ^ 12 % 2 ^ 3 ∈ [3, 6, 7]) ∨
      (w.toNat % 2 ^ 7 = 0x23 ∧ w.toNat / 2 ^ 12 % 2 ^ 3 ∈ [3, 4, 5, 6, 7]) ∨
      (w.toNat % 2 ^ 7 = 0x63 ∧ w.toNat / 2 ^ 12 % 2 ^ 3 ∈ [2, 3])

/-- No word is of two different base rows, nor of two different multiply/divide rows. (A multiply/divide word is of a base
row too: which of the two it is, DecodeFollowsTheOpcodeTable says.) -/
def Obligations.BaseRowsAndMulDivRowsEachDoNotOverlap : Prop :=
  (∀ w : Word, ∀ r₁ ∈ rRows ++ iRows ++ memRows ++ flowRows, ∀ r₂ ∈ rRows ++ iRows ++ memRows ++ flowRows,
    r₁.covers true w = true → r₂.covers true w = true → r₁ = r₂) ∧
  (∀ w : Word, ∀ r₁ ∈ mulDivRows, ∀ r₂ ∈ mulDivRows, r₁.covers true w = true → r₂.covers true w = true → r₁ = r₂)

/-! ## The memory accessor (20_memory.md) -/

/-- MemRead gives the bytes little-endian and zero-extended, or faults when one of them is outside the window. The fault is
the spec's own decision (D5, log entry 15); the rest is section 2 of 20_memory.md. -/
def Obligations.MemReadIsLittleEndianAndZeroExtended : Prop :=
  ∀ (c : Config) (m : Memory) (kind : AccessKind) (addr : Word) (w : AccessWidth),
    ((∀ k, k < w.bytes → inWindow c (addr.toNat + k) = true) →
      ∃ v, memRead c m kind addr w = .ok v ∧
        (∀ k, k < w.bytes → v.extractLsb' (8 * k) 8 = m.read (addr.toNat + k)) ∧
        (∀ i, 8 * w.bytes ≤ i → v.getLsbD i = false)) ∧
    ((∃ k, k < w.bytes ∧ inWindow c (addr.toNat + k) = false) →
      memRead c m kind addr w = .error (.memFault kind addr w))

/-- MemWrite stores exactly the bytes of the access width, or faults and stores none. The fault is the spec's own decision
(D5, log entry 15); the rest is section 2 of 20_memory.md. -/
def Obligations.MemWriteStoresExactlyItsBytes : Prop :=
  ∀ (c : Config) (m : Memory) (addr : Word) (w : AccessWidth) (v : Word),
    ((∀ k, k < w.bytes → inWindow c (addr.toNat + k) = true) →
      ∃ m', memWrite c m addr w v = .ok m' ∧
        (∀ k, k < w.bytes → m'.read (addr.toNat + k) = v.extractLsb' (8 * k) 8) ∧
        (∀ a, a < addr.toNat ∨ addr.toNat + w.bytes ≤ a → m'.read a = m.read a)) ∧
    ((∃ k, k < w.bytes ∧ inWindow c (addr.toNat + k) = false) →
      memWrite c m addr w v = .error (.memFault .store addr w))

/-- R40: the window is half open: its first byte is inside, the byte before it and the byte at its end are not. -/
def Obligations.WindowIsHalfOpen : Prop :=
  ∀ (c : Config) (a : Word),
    inWindow c a.toNat = true ↔ c.memBase.toNat ≤ a.toNat ∧ a.toNat < c.memBase.toNat + c.memSize

/-- Memories in the canonical form that read alike at every address are the same data. -/
def Obligations.CanonicalMemoriesThatReadAlikeAreEqual : Prop :=
  ∀ m₁ m₂ : Memory, m₁.wf = true → m₂.wf = true → (∀ a, m₁.read a = m₂.read a) → m₁ = m₂

/-- R164: a word, halfword or byte stored and then loaded from the same effective address comes back, zero-extended. -/
def Obligations.StoredValueIsLoadedBack : Prop :=
  ∀ (rd rs1 rs2 : RegIdx) (imm : BitVec 12) (s t : State),
    (Sys2Proof.Machine.exec (.sw rs1 rs2 imm) s = .next t →
      ∃ u, Sys2Proof.Machine.exec (.lw rd rs1 imm) t = .next u ∧ u.readReg rd = if rd = 0 then 0#32 else s.readReg rs2) ∧
    (Sys2Proof.Machine.exec (.sh rs1 rs2 imm) s = .next t →
      ∃ u, Sys2Proof.Machine.exec (.lhu rd rs1 imm) t = .next u ∧
        u.readReg rd = if rd = 0 then 0#32 else ((s.readReg rs2).extractLsb' 0 16).setWidth 32) ∧
    (Sys2Proof.Machine.exec (.sb rs1 rs2 imm) s = .next t →
      ∃ u, Sys2Proof.Machine.exec (.lbu rd rs1 imm) t = .next u ∧
        u.readReg rd = if rd = 0 then 0#32 else ((s.readReg rs2).extractLsb' 0 8).setWidth 32)

/-- R56: a word that SW stores over the very next instruction is the instruction the next step runs, with no fence. -/
def Obligations.StoreIsSeenByTheNextFetch : Prop :=
  ∀ (rs1 rs2 : RegIdx) (imm : BitVec 12) (s t : State), s.Running →
    s.readReg rs1 + imm.signExtend 32 = s.pc + 4#32 → Sys2Proof.Machine.exec (.sw rs1 rs2 imm) s = .next t →
    Sys2Proof.Machine.step t = dispatch (decode s.cfg.extM (s.readReg rs2)) t

/-! ## The driver and its entry points (40_step_driver.md) -/

/-- When the four bytes at the pc decode to an instruction, a step of a running state is that instruction's execution;
when they are an undefined encoding, it is that of R192. Nothing else happens around it. -/
def Obligations.StepRunsTheDecodedInstruction : Prop :=
  ∀ s : State, s.Running → s.Holds s.pc 4 →
    let w : Word := s.mem.read (s.pc.toNat + 3) ++ s.mem.read (s.pc.toNat + 2) ++ s.mem.read (s.pc.toNat + 1) ++
      s.mem.read s.pc.toNat
    (∀ i, decode s.cfg.extM w = .instr i → Sys2Proof.Machine.step s = Sys2Proof.Machine.exec i s) ∧
    (∀ why, decode s.cfg.extM w = .undefined why → Sys2Proof.Machine.step s = execUndefined s)

/-- R192: a step at an undefined encoding advances the pc by 4 and changes nothing else; and every word whose bits 1:0 are
not 11, the all-zero word among them, is an undefined encoding. -/
def Obligations.UndefinedWordOnlyAdvancesThePc : Prop :=
  (∀ (s : State) (why : UndefinedReason), s.Running → s.Holds s.pc 4 →
    decode s.cfg.extM (s.mem.read (s.pc.toNat + 3) ++ s.mem.read (s.pc.toNat + 2) ++ s.mem.read (s.pc.toNat + 1) ++
      s.mem.read s.pc.toNat) = .undefined why →
    ∃ t, Sys2Proof.Machine.step s = .next t ∧ PcMoved s t (s.pc + 4#32)) ∧
  (∀ (extM : Bool) (w : Word), w.toNat % 4 ≠ 3 → decode extM w = .undefined .opcode)

/-- A step of a running state goes on, unless its fetch, or the one access of a load or store it fetched, has a byte
outside the window; then, and only then, it answers that access's fault. It never refuses. The fault is the spec's
reading of "undefined" (D5). -/
def Obligations.OnlyAccessesOutsideTheWindowStopAStep : Prop :=
  ∀ s : State, s.Running →
    (¬ s.Holds s.pc 4 ∧ Sys2Proof.Machine.step s = .fault (.memFault .fetch s.pc .word)) ∨
    (s.Holds s.pc 4 ∧ ∃ d, d = decode s.cfg.extM (s.mem.read (s.pc.toNat + 3) ++ s.mem.read (s.pc.toNat + 2) ++
        s.mem.read (s.pc.toNat + 1) ++ s.mem.read s.pc.toNat) ∧
      ((∃ i kind ea w, d = .instr i ∧ accessOf s i = some (kind, ea, w) ∧ ¬ s.Holds ea w.bytes ∧
          Sys2Proof.Machine.step s = .fault (.memFault kind ea w)) ∨
       ((∀ i kind ea w, d = .instr i → accessOf s i = some (kind, ea, w) → s.Holds ea w.bytes) ∧
          ∃ t, Sys2Proof.Machine.step s = .next t)))

/-- After a fault: registers, memory, pc and parameters are as before the step, the fault mark is set, and no later step
or valid_step has an outcome of its own. That they repeat the recorded fault is the model's choice (log entry 4). -/
def Obligations.FaultLeavesTheStateMarkedAndStuck : Prop :=
  ∀ (s t : State) (f : Fault), s.Running → Sys2Proof.Machine.step s = .fault f →
    t = stateAfter s (Sys2Proof.Machine.step s) →
    t.regs = s.regs ∧ t.mem = s.mem ∧ t.pc = s.pc ∧ t.cfg = s.cfg ∧ t.faultMark = some f ∧
    Sys2Proof.Machine.step t = .fault f ∧ validStep t = .fault f

/-- The bound of R9 is the spec's own decision (D2): in a state whose parameters break it the model refuses everything: a
step, valid_step, init, the load of any image, every instruction and every undefined encoding. -/
def Obligations.IllFormedConfigurationIsRefused : Prop :=
  ∀ s : State, ¬ (1 ≤ s.cfg.memSize ∧ s.cfg.memBase.toNat + s.cfg.memSize < 2 ^ 32) →
    Sys2Proof.Machine.step s = .refused .configNotWellFormed ∧ validStep s = .refused .configNotWellFormed ∧
    initHart s = .refused .configNotWellFormed ∧
    (∀ image, loadImage image s = .refused .configNotWellFormed ∧ boot image s = .refused .configNotWellFormed) ∧
    (∀ i, Sys2Proof.Machine.exec i s = .refused .configNotWellFormed) ∧
    execUndefined s = .refused .configNotWellFormed

/-- R102: init sets pc to the base and register 2 to base + size, exactly, and writes nothing else; a second call writes
the same values again. (On a configuration R9 rules out it is refused: IllFormedConfigurationIsRefused.) -/
def Obligations.InitWritesThePcAndRegister2Only : Prop :=
  ∀ s : State, s.cfg.wf = true →
    ∃ t, initHart s = .next t ∧ t.pc = s.cfg.memBase ∧
      (t.readReg 2).toNat = s.cfg.memBase.toNat + s.cfg.memSize ∧
      (∀ r, r ≠ 2 → t.readReg r = s.readReg r) ∧
      (∀ a, t.mem.read a = s.mem.read a) ∧
      t.faultMark = s.faultMark ∧ t.cfg = s.cfg ∧
      initHart t = .next t

/-- The values section 7 of 10_state.md gives for the state after init, for every legal configuration. The registers it
leaves unspecified are not spoken of. -/
def Obligations.ResetHoldsTheStatedValues : Prop :=
  ∀ (c : Config) (legal : c.wf = true),
    (State.resetOf c legal).pc = c.memBase ∧ (State.resetOf c legal).readReg 0 = 0#32 ∧
    ((State.resetOf c legal).readReg 2).toNat = c.memBase.toNat + c.memSize ∧
    (State.resetOf c legal).faultMark = none ∧ (State.resetOf c legal).cfg = c

/-- valid_step, with the bound on the pc first and the read after it (the spec's decision D10). -/
def Obligations.ValidStepAnswersByBoundThenWord : Prop :=
  ∀ s : State, s.Running →
    (s.cfg.memBase.toNat + s.cfg.memSize ≤ s.pc.toNat → validStep s = .next false) ∧
    (s.pc.toNat < s.cfg.memBase.toNat + s.cfg.memSize → ¬ s.Holds s.pc 4 →
      validStep s = .fault (.memFault .fetch s.pc .word)) ∧
    (s.pc.toNat < s.cfg.memBase.toNat + s.cfg.memSize → s.Holds s.pc 4 →
      ∃ b, validStep s = .next b ∧ (b = false ↔ ∀ k, k < 4 → s.mem.read (s.pc.toNat + k) = 0x00#8))

/-- A run that halts does so in a state where valid_step is false; a run that faults leaves a marked state. That a fault of
valid_step's own read marks it too, and that a marked state repeats its fault, are the model's choices (log entries 21
and 4). -/
def Obligations.RunsEndAsValidStepAndTheFaultMarkSay : Prop :=
  ∀ (n : Nat) (s t : State),
    (hostRun n s = .halted t → validStep t = .next false) ∧
    (hostRun n s = .faulted t → ∃ f, t.faultMark = some f ∧ validStep t = .fault f)

/-! ## What every step keeps -/

/-- Legal parameters, canonical memory inside the window, slot 0 zero and no fault mark: every step keeps this, from
every state that has it. -/
def Obligations.StepKeepsTheInvariant : Prop :=
  ∀ s t : State, s.Inv → Sys2Proof.Machine.step s = .next t → t.Inv

/-- The state after reset has the invariant, for every legal configuration and for the one the machine is reset with
(log entry 1: the model's choice). -/
def Obligations.ResetHasTheInvariant : Prop :=
  (∀ (c : Config) (legal : c.wf = true), (State.resetOf c legal).Inv) ∧ State.reset.Inv

/-- An even pc stays even: branch and JAL offsets are even and JALR clears bit 0. (Not a multiple of 4: C1.) -/
def Obligations.StepKeepsThePcEven : Prop :=
  ∀ s t : State, s.pc.getLsbD 0 = false → Sys2Proof.Machine.step s = .next t → t.pc.getLsbD 0 = false

/-- A step that goes on changes no parameter, and there is no fault mark before it or after it: a marked state has no
further step, by the spec's own decision (R94, D5). -/
def Obligations.StepKeepsParametersAndMark : Prop :=
  ∀ s t : State, Sys2Proof.Machine.step s = .next t → t.cfg = s.cfg ∧ s.faultMark = none ∧ t.faultMark = none

/-- R95: after every step slot 0 holds 0 and reads 0, and a register write with index 0 is lost. -/
def Obligations.EveryStepZeroesSlot0 : Prop :=
  (∀ s t : State, Sys2Proof.Machine.step s = .next t → t.regs[0] = 0#32 ∧ t.readReg 0 = 0#32) ∧
  (∀ (i : Instr) (s t : State), destOf i = some 0 → Sys2Proof.Machine.exec i s = .next t →
    ∀ r, t.readReg r = s.readReg r)

/-- Slot 0 always reads as 0, and whatever the slot holds makes no difference to any instruction, nor to a step. The first
clause is the spec's. The other two rest on the zeroing at the end of a step, and speak of states with another value in slot
0, which no run reaches: what happens there is the model's (log entry 10, DEDUCED). -/
def Obligations.WhatSlot0HoldsIsNeverSeen : Prop :=
  (∀ s : State, s.readReg 0 = 0#32) ∧
  (∀ (i : Instr) (s : State) (v : Word),
    Sys2Proof.Machine.exec i { s with regs := s.regs.set 0 v } = Sys2Proof.Machine.exec i s) ∧
  (∀ (s : State) (v : Word),
    Sys2Proof.Machine.step { s with regs := s.regs.set 0 v } = Sys2Proof.Machine.step s)

/-- An instruction writes no register but its destination; stores, branches and FENCE write none (R23). -/
def Obligations.InstructionsWriteOnlyTheirDestination : Prop :=
  ∀ (i : Instr) (s t : State), Sys2Proof.Machine.exec i s = .next t →
    ∀ r, destOf i ≠ some r → t.readReg r = s.readReg r

/-- Only stores change memory, and only the bytes of their own access (R45). -/
def Obligations.OnlyStoresChangeMemory : Prop :=
  ∀ (i : Instr) (s t : State), Sys2Proof.Machine.exec i s = .next t →
    ∀ a, (∀ ea w, accessOf s i = some (.store, ea, w) → a < ea.toNat ∨ ea.toNat + w.bytes ≤ a) →
      t.mem.read a = s.mem.read a

/-- The pc goes to pc + 4 unless the instruction is a branch or a jump (R96; by class: D9). -/
def Obligations.OnlyBranchesAndJumpsRedirectThePc : Prop :=
  ∀ (i : Instr) (s t : State), Sys2Proof.Machine.exec i s = .next t → t.pc ≠ s.pc + 4#32 →
    i.mnemonic ∈ ["BEQ", "BNE", "BLT", "BGE", "BLTU", "BGEU", "JAL", "JALR"]

/-! The statements below that say what an instruction does are about states with legal parameters (R9); in the others it is
refused (IllFormedConfigurationIsRefused). -/

/-! ## R-type (41_r_type.md); what the mnemonics mean is the spec's general knowledge (G3, G4, G5) -/

/-- ADD and SUB modulo 2^32; XOR, OR and AND bitwise. -/
def Obligations.AddSubAndLogicOfRegisters : Prop :=
  ∀ (rd rs1 rs2 : RegIdx) (s : State), s.cfg.wf = true →
    (∃ t, Sys2Proof.Machine.exec (.add rd rs1 rs2) s = .next t ∧
      RegWritten s t rd (s.readReg rs1 + s.readReg rs2) (s.pc + 4#32)) ∧
    (∃ t, Sys2Proof.Machine.exec (.sub rd rs1 rs2) s = .next t ∧
      RegWritten s t rd (s.readReg rs1 - s.readReg rs2) (s.pc + 4#32)) ∧
    (∃ t, Sys2Proof.Machine.exec (.xor rd rs1 rs2) s = .next t ∧
      RegWritten s t rd (s.readReg rs1 ^^^ s.readReg rs2) (s.pc + 4#32)) ∧
    (∃ t, Sys2Proof.Machine.exec (.or rd rs1 rs2) s = .next t ∧
      RegWritten s t rd (s.readReg rs1 ||| s.readReg rs2) (s.pc + 4#32)) ∧
    (∃ t, Sys2Proof.Machine.exec (.and rd rs1 rs2) s = .next t ∧
      RegWritten s t rd (s.readReg rs1 &&& s.readReg rs2) (s.pc + 4#32))

/-- SLL, SRL and SRA shift by the low 5 bits of rs2, filling with zeros, zeros and copies of the sign bit. -/
def Obligations.ShiftsByRegister : Prop :=
  ∀ (rd rs1 rs2 : RegIdx) (s : State), s.cfg.wf = true →
    (∃ t, Sys2Proof.Machine.exec (.sll rd rs1 rs2) s = .next t ∧
      RegWritten s t rd (s.readReg rs1 <<< ((s.readReg rs2).toNat % 32)) (s.pc + 4#32)) ∧
    (∃ t, Sys2Proof.Machine.exec (.srl rd rs1 rs2) s = .next t ∧
      RegWritten s t rd (s.readReg rs1 >>> ((s.readReg rs2).toNat % 32)) (s.pc + 4#32)) ∧
    (∃ t v, Sys2Proof.Machine.exec (.sra rd rs1 rs2) s = .next t ∧ RegWritten s t rd v (s.pc + 4#32) ∧
      v.toInt = (s.readReg rs1).toInt / 2 ^ ((s.readReg rs2).toNat % 32))

/-- SLT and SLTU give 1 or 0, by the signed and the unsigned comparison. -/
def Obligations.ComparesOfRegisters : Prop :=
  ∀ (rd rs1 rs2 : RegIdx) (s : State), s.cfg.wf = true →
    (∃ t, Sys2Proof.Machine.exec (.slt rd rs1 rs2) s = .next t ∧
      RegWritten s t rd (if (s.readReg rs1).toInt < (s.readReg rs2).toInt then 1#32 else 0#32) (s.pc + 4#32)) ∧
    (∃ t, Sys2Proof.Machine.exec (.sltu rd rs1 rs2) s = .next t ∧
      RegWritten s t rd (if (s.readReg rs1).toNat < (s.readReg rs2).toNat then 1#32 else 0#32) (s.pc + 4#32))

/-! ## I-type (42_i_type.md) -/

/-- R131, encoding and effect: every word with opcode 0x13 and funct3 000 is ADDI of its fields, and ADDI writes
x[rs1] + imm_I modulo 2^32. -/
def Obligations.AddiEncodingAndSum : Prop :=
  (∀ (extM : Bool) (w : Word), w &&& 0x0000707F#32 = 0x00000013#32 →
    decode extM w = .instr (.addi (rdField w) (rs1Field w) (immIField w))) ∧
  (∀ (rd rs1 : RegIdx) (imm : BitVec 12) (s : State), s.cfg.wf = true →
    ∃ t, Sys2Proof.Machine.exec (.addi rd rs1 imm) s = .next t ∧
      RegWritten s t rd (s.readReg rs1 + imm.signExtend 32) (s.pc + 4#32))

/-- XORI, ORI and ANDI with the sign-extended immediate. -/
def Obligations.LogicWithImmediate : Prop :=
  ∀ (rd rs1 : RegIdx) (imm : BitVec 12) (s : State), s.cfg.wf = true →
    (∃ t, Sys2Proof.Machine.exec (.xori rd rs1 imm) s = .next t ∧
      RegWritten s t rd (s.readReg rs1 ^^^ imm.signExtend 32) (s.pc + 4#32)) ∧
    (∃ t, Sys2Proof.Machine.exec (.ori rd rs1 imm) s = .next t ∧
      RegWritten s t rd (s.readReg rs1 ||| imm.signExtend 32) (s.pc + 4#32)) ∧
    (∃ t, Sys2Proof.Machine.exec (.andi rd rs1 imm) s = .next t ∧
      RegWritten s t rd (s.readReg rs1 &&& imm.signExtend 32) (s.pc + 4#32))

/-- SLTI compares as signed; SLTIU compares with the sign-extended immediate as unsigned (G3). -/
def Obligations.ComparesWithImmediate : Prop :=
  ∀ (rd rs1 : RegIdx) (imm : BitVec 12) (s : State), s.cfg.wf = true →
    (∃ t, Sys2Proof.Machine.exec (.slti rd rs1 imm) s = .next t ∧
      RegWritten s t rd (if (s.readReg rs1).toInt < imm.toInt then 1#32 else 0#32) (s.pc + 4#32)) ∧
    (∃ t, Sys2Proof.Machine.exec (.sltiu rd rs1 imm) s = .next t ∧
      RegWritten s t rd (if (s.readReg rs1).toNat < (imm.signExtend 32).toNat then 1#32 else 0#32) (s.pc + 4#32))

/-- SLLI, SRLI and SRAI shift by shamt, 0 to 31 (G4). -/
def Obligations.ShiftsByShamt : Prop :=
  ∀ (rd rs1 : RegIdx) (shamt : BitVec 5) (s : State), s.cfg.wf = true →
    (∃ t, Sys2Proof.Machine.exec (.slli rd rs1 shamt) s = .next t ∧
      RegWritten s t rd (s.readReg rs1 <<< shamt.toNat) (s.pc + 4#32)) ∧
    (∃ t, Sys2Proof.Machine.exec (.srli rd rs1 shamt) s = .next t ∧
      RegWritten s t rd (s.readReg rs1 >>> shamt.toNat) (s.pc + 4#32)) ∧
    (∃ t v, Sys2Proof.Machine.exec (.srai rd rs1 shamt) s = .next t ∧ RegWritten s t rd v (s.pc + 4#32) ∧
      v.toInt = (s.readReg rs1).toInt / 2 ^ shamt.toNat)

/-! ## Loads (43_loads.md) -/

/-- LB and LBU of a byte in the window: sign- and zero-extended into rd; the base register is not modified. -/
def Obligations.ByteLoads : Prop :=
  ∀ (rd rs1 : RegIdx) (imm : BitVec 12) (s : State) (ea : Word), s.cfg.wf = true → ea = s.readReg rs1 + imm.signExtend 32 →
    s.Holds ea 1 →
    (∃ t, Sys2Proof.Machine.exec (.lb rd rs1 imm) s = .next t ∧
      RegWritten s t rd ((s.mem.read ea.toNat).signExtend 32) (s.pc + 4#32)) ∧
    (∃ t, Sys2Proof.Machine.exec (.lbu rd rs1 imm) s = .next t ∧
      RegWritten s t rd ((s.mem.read ea.toNat).setWidth 32) (s.pc + 4#32))

/-- LH and LHU of two bytes in the window, at any alignment (the spec's decision D6). -/
def Obligations.HalfwordLoads : Prop :=
  ∀ (rd rs1 : RegIdx) (imm : BitVec 12) (s : State) (ea : Word), s.cfg.wf = true → ea = s.readReg rs1 + imm.signExtend 32 →
    s.Holds ea 2 →
    (∃ t, Sys2Proof.Machine.exec (.lh rd rs1 imm) s = .next t ∧
      RegWritten s t rd ((s.mem.read (ea.toNat + 1) ++ s.mem.read ea.toNat).signExtend 32) (s.pc + 4#32)) ∧
    (∃ t, Sys2Proof.Machine.exec (.lhu rd rs1 imm) s = .next t ∧
      RegWritten s t rd ((s.mem.read (ea.toNat + 1) ++ s.mem.read ea.toNat).setWidth 32) (s.pc + 4#32))

/-- LW of four bytes in the window, at any alignment (the spec's decision D6). -/
def Obligations.WordLoad : Prop :=
  ∀ (rd rs1 : RegIdx) (imm : BitVec 12) (s : State) (ea : Word), s.cfg.wf = true → ea = s.readReg rs1 + imm.signExtend 32 →
    s.Holds ea 4 →
    ∃ t, Sys2Proof.Machine.exec (.lw rd rs1 imm) s = .next t ∧
      RegWritten s t rd (s.mem.read (ea.toNat + 3) ++ s.mem.read (ea.toNat + 2) ++ s.mem.read (ea.toNat + 1) ++
        s.mem.read ea.toNat) (s.pc + 4#32)

/-- A load with a byte outside the window faults, with any rd, x0 among them (D5). -/
def Obligations.LoadsOutsideTheWindowFault : Prop :=
  ∀ (rd rs1 : RegIdx) (imm : BitVec 12) (s : State) (ea : Word), s.cfg.wf = true → ea = s.readReg rs1 + imm.signExtend 32 →
    (¬ s.Holds ea 1 → Sys2Proof.Machine.exec (.lb rd rs1 imm) s = .fault (.memFault .load ea .byte) ∧
      Sys2Proof.Machine.exec (.lbu rd rs1 imm) s = .fault (.memFault .load ea .byte)) ∧
    (¬ s.Holds ea 2 → Sys2Proof.Machine.exec (.lh rd rs1 imm) s = .fault (.memFault .load ea .half) ∧
      Sys2Proof.Machine.exec (.lhu rd rs1 imm) s = .fault (.memFault .load ea .half)) ∧
    (¬ s.Holds ea 4 → Sys2Proof.Machine.exec (.lw rd rs1 imm) s = .fault (.memFault .load ea .word))

/-! ## Stores (44_stores.md) -/

/-- SB, SH and SW into the window store the low 1, 2 and 4 bytes of x[rs2] and change nothing else but the pc. -/
def Obligations.StoresWriteTheLowBytes : Prop :=
  ∀ (rs1 rs2 : RegIdx) (imm : BitVec 12) (s : State) (ea : Word), s.cfg.wf = true → ea = s.readReg rs1 + imm.signExtend 32 →
    (s.Holds ea 1 → ∃ t, Sys2Proof.Machine.exec (.sb rs1 rs2 imm) s = .next t ∧
      BytesStored s t ea 1 (s.readReg rs2) (s.pc + 4#32)) ∧
    (s.Holds ea 2 → ∃ t, Sys2Proof.Machine.exec (.sh rs1 rs2 imm) s = .next t ∧
      BytesStored s t ea 2 (s.readReg rs2) (s.pc + 4#32)) ∧
    (s.Holds ea 4 → ∃ t, Sys2Proof.Machine.exec (.sw rs1 rs2 imm) s = .next t ∧
      BytesStored s t ea 4 (s.readReg rs2) (s.pc + 4#32))

/-- A store with a byte outside the window faults (D5). -/
def Obligations.StoresOutsideTheWindowFault : Prop :=
  ∀ (rs1 rs2 : RegIdx) (imm : BitVec 12) (s : State) (ea : Word), s.cfg.wf = true → ea = s.readReg rs1 + imm.signExtend 32 →
    (¬ s.Holds ea 1 → Sys2Proof.Machine.exec (.sb rs1 rs2 imm) s = .fault (.memFault .store ea .byte)) ∧
    (¬ s.Holds ea 2 → Sys2Proof.Machine.exec (.sh rs1 rs2 imm) s = .fault (.memFault .store ea .half)) ∧
    (¬ s.Holds ea 4 → Sys2Proof.Machine.exec (.sw rs1 rs2 imm) s = .fault (.memFault .store ea .word))

/-! ## Branches (45_branches.md): the target is the branch's own address plus the offset, unchecked -/

/-- BEQ and BNE. -/
def Obligations.EqualityBranches : Prop :=
  ∀ (rs1 rs2 : RegIdx) (imm : BitVec 13) (s : State), s.cfg.wf = true →
    (∃ t, Sys2Proof.Machine.exec (.beq rs1 rs2 imm) s = .next t ∧
      PcMoved s t (if s.readReg rs1 = s.readReg rs2 then s.pc + imm.signExtend 32 else s.pc + 4#32)) ∧
    (∃ t, Sys2Proof.Machine.exec (.bne rs1 rs2 imm) s = .next t ∧
      PcMoved s t (if s.readReg rs1 = s.readReg rs2 then s.pc + 4#32 else s.pc + imm.signExtend 32))

/-- BLT and BGE, signed. -/
def Obligations.SignedBranches : Prop :=
  ∀ (rs1 rs2 : RegIdx) (imm : BitVec 13) (s : State), s.cfg.wf = true →
    (∃ t, Sys2Proof.Machine.exec (.blt rs1 rs2 imm) s = .next t ∧
      PcMoved s t (if (s.readReg rs1).toInt < (s.readReg rs2).toInt then s.pc + imm.signExtend 32 else s.pc + 4#32)) ∧
    (∃ t, Sys2Proof.Machine.exec (.bge rs1 rs2 imm) s = .next t ∧
      PcMoved s t (if (s.readReg rs2).toInt ≤ (s.readReg rs1).toInt then s.pc + imm.signExtend 32 else s.pc + 4#32))

/-- BLTU and BGEU, unsigned. -/
def Obligations.UnsignedBranches : Prop :=
  ∀ (rs1 rs2 : RegIdx) (imm : BitVec 13) (s : State), s.cfg.wf = true →
    (∃ t, Sys2Proof.Machine.exec (.bltu rs1 rs2 imm) s = .next t ∧
      PcMoved s t (if (s.readReg rs1).toNat < (s.readReg rs2).toNat then s.pc + imm.signExtend 32 else s.pc + 4#32)) ∧
    (∃ t, Sys2Proof.Machine.exec (.bgeu rs1 rs2 imm) s = .next t ∧
      PcMoved s t (if (s.readReg rs2).toNat ≤ (s.readReg rs1).toNat then s.pc + imm.signExtend 32 else s.pc + 4#32))

/-! ## Upper immediates, jumps, FENCE (46_upper_imm.md to 48_fence_and_undefined.md) -/

/-- R181, encoding and effect: every word with opcode 0x37 is LUI of its fields, and LUI writes the upper immediate. -/
def Obligations.LuiEncodingAndValue : Prop :=
  (∀ (extM : Bool) (w : Word), w &&& 0x0000007F#32 = 0x00000037#32 →
    decode extM w = .instr (.lui (rdField w) (immUField w))) ∧
  (∀ (rd : RegIdx) (imm : BitVec 20) (s : State), s.cfg.wf = true →
    ∃ t, Sys2Proof.Machine.exec (.lui rd imm) s = .next t ∧
      RegWritten s t rd (BitVec.ofNat 32 (imm.toNat * 2 ^ 12)) (s.pc + 4#32))

/-- R182, encoding and effect: every word with opcode 0x17 is AUIPC of its fields, and AUIPC adds the upper immediate to
the instruction's own address. -/
def Obligations.AuipcEncodingAndValue : Prop :=
  (∀ (extM : Bool) (w : Word), w &&& 0x0000007F#32 = 0x00000017#32 →
    decode extM w = .instr (.auipc (rdField w) (immUField w))) ∧
  (∀ (rd : RegIdx) (imm : BitVec 20) (s : State), s.cfg.wf = true →
    ∃ t, Sys2Proof.Machine.exec (.auipc rd imm) s = .next t ∧
      RegWritten s t rd (s.pc + BitVec.ofNat 32 (imm.toNat * 2 ^ 12)) (s.pc + 4#32))

/-- R186, encoding and effect: every word with opcode 0x6F is JAL of its fields, and JAL links pc + 4 and goes to the
instruction's own address plus the offset. -/
def Obligations.JalEncodingLinkAndTarget : Prop :=
  (∀ (extM : Bool) (w : Word), w &&& 0x0000007F#32 = 0x0000006F#32 →
    decode extM w = .instr (.jal (rdField w) (immJField w))) ∧
  (∀ (rd : RegIdx) (imm : BitVec 21) (s : State), s.cfg.wf = true →
    ∃ t, Sys2Proof.Machine.exec (.jal rd imm) s = .next t ∧
      RegWritten s t rd (s.pc + 4#32) (s.pc + imm.signExtend 32))

/-- JALR, whatever funct3 holds (D16): it links pc + 4 and goes to the old x[rs1] plus the immediate, bit 0 cleared; the
target is computed from the value read before rd is written (D8). -/
def Obligations.JalrEncodingLinkAndTarget : Prop :=
  (∀ (extM : Bool) (w : Word), w &&& 0x0000007F#32 = 0x00000067#32 →
    decode extM w = .instr (.jalr (rdField w) (rs1Field w) (immIField w))) ∧
  (∀ (rd rs1 : RegIdx) (imm : BitVec 12) (s : State), s.cfg.wf = true →
    ∃ t, Sys2Proof.Machine.exec (.jalr rd rs1 imm) s = .next t ∧
      RegWritten s t rd (s.pc + 4#32)
        (BitVec.ofNat 32 ((s.readReg rs1 + imm.signExtend 32).toNat / 2 * 2)))

/-- FENCE, whatever its other bits hold (D16), advances the pc and does nothing else. -/
def Obligations.FenceOnlyAdvancesThePc : Prop :=
  (∀ (extM : Bool) (w : Word), w &&& 0x0000007F#32 = 0x0000000F#32 → decode extM w = .instr .fence) ∧
  (∀ s : State, s.cfg.wf = true → ∃ t, Sys2Proof.Machine.exec .fence s = .next t ∧ PcMoved s t (s.pc + 4#32))

/-! ## Multiply and divide (49_muldiv.md) -/

/-- MUL is the low half of the product, MULH, MULHSU and MULHU the high half of the signed by signed, signed by unsigned
(rs1 signed: D22) and unsigned by unsigned product, as exact integers. -/
def Obligations.MultiplicationHalves : Prop :=
  ∀ (rd rs1 rs2 : RegIdx) (s : State), s.cfg.wf = true →
    (∃ t, Sys2Proof.Machine.exec (.mul rd rs1 rs2) s = .next t ∧
      RegWritten s t rd (s.readReg rs1 * s.readReg rs2) (s.pc + 4#32)) ∧
    (∃ t v, Sys2Proof.Machine.exec (.mulh rd rs1 rs2) s = .next t ∧ RegWritten s t rd v (s.pc + 4#32) ∧
      v.toInt = (s.readReg rs1).toInt * (s.readReg rs2).toInt / 2 ^ 32) ∧
    (∃ t v, Sys2Proof.Machine.exec (.mulhsu rd rs1 rs2) s = .next t ∧ RegWritten s t rd v (s.pc + 4#32) ∧
      v.toInt = (s.readReg rs1).toInt * (s.readReg rs2).toNat / 2 ^ 32) ∧
    (∃ t v, Sys2Proof.Machine.exec (.mulhu rd rs1 rs2) s = .next t ∧ RegWritten s t rd v (s.pc + 4#32) ∧
      v.toNat = (s.readReg rs1).toNat * (s.readReg rs2).toNat / 2 ^ 32)

/-- DIV and REM: the sentinels on divisor 0, the spec's decided values on overflow (D12), and otherwise the quotient
truncated toward zero and its remainder (D23). -/
def Obligations.SignedDivisionCases : Prop :=
  ∀ (rd rs1 rs2 : RegIdx) (s : State) (a b : Word), s.cfg.wf = true → a = s.readReg rs1 → b = s.readReg rs2 →
    ∃ t u q r, Sys2Proof.Machine.exec (.div rd rs1 rs2) s = .next t ∧ RegWritten s t rd q (s.pc + 4#32) ∧
      Sys2Proof.Machine.exec (.rem rd rs1 rs2) s = .next u ∧ RegWritten s u rd r (s.pc + 4#32) ∧
      (b = 0#32 → q = 0xFFFFFFFF#32 ∧ r = a) ∧
      (a = 0x80000000#32 → b = 0xFFFFFFFF#32 → q = 0x80000000#32 ∧ r = 0#32) ∧
      (b ≠ 0#32 → ¬ (a = 0x80000000#32 ∧ b = 0xFFFFFFFF#32) →
        q.toInt = a.toInt.tdiv b.toInt ∧ r.toInt = a.toInt.tmod b.toInt)

/-- DIVU and REMU: the sentinels on divisor 0, and otherwise quotient and remainder. -/
def Obligations.UnsignedDivisionCases : Prop :=
  ∀ (rd rs1 rs2 : RegIdx) (s : State) (a b : Word), s.cfg.wf = true → a = s.readReg rs1 → b = s.readReg rs2 →
    ∃ t u q r, Sys2Proof.Machine.exec (.divu rd rs1 rs2) s = .next t ∧ RegWritten s t rd q (s.pc + 4#32) ∧
      Sys2Proof.Machine.exec (.remu rd rs1 rs2) s = .next u ∧ RegWritten s u rd r (s.pc + 4#32) ∧
      (b = 0#32 → q = 0xFFFFFFFF#32 ∧ r = a) ∧
      (b ≠ 0#32 → q.toNat = a.toNat / b.toNat ∧ r.toNat = a.toNat % b.toNat)

/-- R209: the laws that tie quotient and remainder together, read from the registers the instructions wrote (rd is not
x0, where there is no result to speak of; the two statements above say what x0 gets). -/
def Obligations.QuotientAndRemainderLaws : Prop :=
  ∀ (rd rs1 rs2 : RegIdx) (s : State) (a b : Word), s.cfg.wf = true → a = s.readReg rs1 → b = s.readReg rs2 → rd ≠ 0 → b ≠ 0#32 →
    (¬ (a = 0x80000000#32 ∧ b = 0xFFFFFFFF#32) →
      ∃ t u q r, Sys2Proof.Machine.exec (.div rd rs1 rs2) s = .next t ∧ q = (t.readReg rd).toInt ∧
        Sys2Proof.Machine.exec (.rem rd rs1 rs2) s = .next u ∧ r = (u.readReg rd).toInt ∧
        a.toInt = b.toInt * q + r ∧ |r| < |b.toInt| ∧ (r = 0 ∨ r.sign = a.toInt.sign)) ∧
    (∃ t u q r, Sys2Proof.Machine.exec (.divu rd rs1 rs2) s = .next t ∧ q = (t.readReg rd).toNat ∧
        Sys2Proof.Machine.exec (.remu rd rs1 rs2) s = .next u ∧ r = (u.readReg rd).toNat ∧
        a.toNat = b.toNat * q + r ∧ r < b.toNat)
end

