-- ==== Sys2Proof/Laws/Decode.lean ====
section
/-! SUPPORT. The fields of an encoded word are the fields it was made of (30_encoding.md R75 to R80). -/

namespace Sys2Proof

/-! ## Fields of a concatenation -/

theorem fieldAbove {n m : Nat} (a : BitVec n) (b : BitVec m) (lo len : Nat) (h : m ≤ lo) :
    (a ++ b).extractLsb' lo len = a.extractLsb' (lo - m) len := by
  apply BitVec.eq_of_getLsbD_eq
  intro i hi
  simp [BitVec.getLsbD_append, show ¬ lo + i < m by omega, show lo + i - m = lo - m + i by omega]

theorem fieldBelow {n m : Nat} (a : BitVec n) (b : BitVec m) (lo len : Nat) (h : lo + len ≤ m) :
    (a ++ b).extractLsb' lo len = b.extractLsb' lo len := by
  apply BitVec.eq_of_getLsbD_eq
  intro i hi
  simp [BitVec.getLsbD_append, show lo + i < m by omega]

theorem bitAbove {n m : Nat} (a : BitVec n) (b : BitVec m) (i : Nat) (h : m ≤ i) :
    (a ++ b).getLsbD i = a.getLsbD (i - m) := by simp [BitVec.getLsbD_append, Nat.not_lt.2 h]

@[simp] theorem regOfBits_bitsOfReg (r : RegIdx) : regOfBits (bitsOfReg r) = r :=
  Fin.ext (Nat.mod_eq_of_lt r.isLt)

@[simp] theorem bitsOfReg_regOfBits (b : BitVec 5) : bitsOfReg (regOfBits b) = b :=
  BitVec.eq_of_toNat_eq (Nat.mod_eq_of_lt b.isLt)

theorem regOfBits_eq {b : BitVec 5} {r : RegIdx} (h : b = bitsOfReg r) : regOfBits b = r := by simp [h]

/-! ## An immediate put together again from its parts -/

theorem join12 (imm : BitVec 12) : (imm.extractLsb' 5 7 ++ imm.extractLsb' 0 5 : BitVec (7 + 5)) = imm := by
  apply BitVec.eq_of_getLsbD_eq
  intro i hi
  simp only [BitVec.getLsbD_append, BitVec.getLsbD_extractLsb']
  interval_cases i <;> simp

theorem join13 (imm : BitVec 13) (h : imm.getLsbD 0 = false) :
    (imm.extractLsb' 12 1 ++ imm.extractLsb' 11 1 ++ imm.extractLsb' 5 6 ++ imm.extractLsb' 1 4 ++ 0#1 :
      BitVec (1 + 1 + 6 + 4 + 1)) = imm := by
  apply BitVec.eq_of_getLsbD_eq
  intro i hi
  simp only [BitVec.getLsbD_append, BitVec.getLsbD_extractLsb']
  interval_cases i <;> simp [show imm[0] = false by simpa using h]

theorem join21 (imm : BitVec 21) (h : imm.getLsbD 0 = false) :
    (imm.extractLsb' 20 1 ++ imm.extractLsb' 12 8 ++ imm.extractLsb' 11 1 ++ imm.extractLsb' 1 10 ++ 0#1 :
      BitVec (1 + 8 + 1 + 10 + 1)) = imm := by
  apply BitVec.eq_of_getLsbD_eq
  intro i hi
  simp only [BitVec.getLsbD_append, BitVec.getLsbD_extractLsb']
  interval_cases i <;> simp [show imm[0] = false by simpa using h]

/-! ## R -/

@[simp] theorem funct7Field_encodeR (f7 : BitVec 7) (f3 : BitVec 3) (rd rs1 rs2 : RegIdx) :
    funct7Field (encodeR f7 f3 rd rs1 rs2) = f7 := by
  unfold funct7Field encodeR
  iterate 5 refine (fieldAbove _ _ _ _ (by decide)).trans ?_
  exact BitVec.extractLsb'_eq_self

@[simp] theorem rs2Field_encodeR (f7 : BitVec 7) (f3 : BitVec 3) (rd rs1 rs2 : RegIdx) :
    rs2Field (encodeR f7 f3 rd rs1 rs2) = rs2 := by
  refine regOfBits_eq ?_
  unfold encodeR
  iterate 4 refine (fieldAbove _ _ _ _ (by decide)).trans ?_
  exact (fieldBelow _ _ _ _ (by decide)).trans BitVec.extractLsb'_eq_self

@[simp] theorem rs1Field_encodeR (f7 : BitVec 7) (f3 : BitVec 3) (rd rs1 rs2 : RegIdx) :
    rs1Field (encodeR f7 f3 rd rs1 rs2) = rs1 := by
  refine regOfBits_eq ?_
  unfold encodeR
  iterate 3 refine (fieldAbove _ _ _ _ (by decide)).trans ?_
  exact (fieldBelow _ _ _ _ (by decide)).trans BitVec.extractLsb'_eq_self

@[simp] theorem funct3Field_encodeR (f7 : BitVec 7) (f3 : BitVec 3) (rd rs1 rs2 : RegIdx) :
    funct3Field (encodeR f7 f3 rd rs1 rs2) = f3 := by
  unfold funct3Field encodeR
  iterate 2 refine (fieldAbove _ _ _ _ (by decide)).trans ?_
  exact (fieldBelow _ _ _ _ (by decide)).trans BitVec.extractLsb'_eq_self

@[simp] theorem rdField_encodeR (f7 : BitVec 7) (f3 : BitVec 3) (rd rs1 rs2 : RegIdx) :
    rdField (encodeR f7 f3 rd rs1 rs2) = rd := by
  refine regOfBits_eq ?_
  unfold encodeR
  refine (fieldAbove _ _ _ _ (by decide)).trans ?_
  exact (fieldBelow _ _ _ _ (by decide)).trans BitVec.extractLsb'_eq_self

@[simp] theorem opcodeField_encodeR (f7 : BitVec 7) (f3 : BitVec 3) (rd rs1 rs2 : RegIdx) :
    opcodeField (encodeR f7 f3 rd rs1 rs2) = 0x33#7 := by
  unfold opcodeField encodeR
  exact (fieldBelow _ _ _ _ (by decide)).trans BitVec.extractLsb'_eq_self

@[simp] theorem altBit_encodeR (f7 : BitVec 7) (f3 : BitVec 3) (rd rs1 rs2 : RegIdx) :
    altBit (encodeR f7 f3 rd rs1 rs2) = f7.getLsbD 5 := by
  unfold altBit encodeR
  iterate 5 refine (bitAbove _ _ _ (by decide)).trans ?_
  rfl

/-! ## I -/

@[simp] theorem immIField_encodeI (op : BitVec 7) (f3 : BitVec 3) (rd rs1 : RegIdx) (imm : BitVec 12) :
    immIField (encodeI op f3 rd rs1 imm) = imm := by
  unfold immIField encodeI
  iterate 4 refine (fieldAbove _ _ _ _ (by decide)).trans ?_
  exact BitVec.extractLsb'_eq_self

@[simp] theorem rs1Field_encodeI (op : BitVec 7) (f3 : BitVec 3) (rd rs1 : RegIdx) (imm : BitVec 12) :
    rs1Field (encodeI op f3 rd rs1 imm) = rs1 := by
  refine regOfBits_eq ?_
  unfold encodeI
  iterate 3 refine (fieldAbove _ _ _ _ (by decide)).trans ?_
  exact (fieldBelow _ _ _ _ (by decide)).trans BitVec.extractLsb'_eq_self

@[simp] theorem funct3Field_encodeI (op : BitVec 7) (f3 : BitVec 3) (rd rs1 : RegIdx) (imm : BitVec 12) :
    funct3Field (encodeI op f3 rd rs1 imm) = f3 := by
  unfold funct3Field encodeI
  iterate 2 refine (fieldAbove _ _ _ _ (by decide)).trans ?_
  exact (fieldBelow _ _ _ _ (by decide)).trans BitVec.extractLsb'_eq_self

@[simp] theorem rdField_encodeI (op : BitVec 7) (f3 : BitVec 3) (rd rs1 : RegIdx) (imm : BitVec 12) :
    rdField (encodeI op f3 rd rs1 imm) = rd := by
  refine regOfBits_eq ?_
  unfold encodeI
  refine (fieldAbove _ _ _ _ (by decide)).trans ?_
  exact (fieldBelow _ _ _ _ (by decide)).trans BitVec.extractLsb'_eq_self

@[simp] theorem opcodeField_encodeI (op : BitVec 7) (f3 : BitVec 3) (rd rs1 : RegIdx) (imm : BitVec 12) :
    opcodeField (encodeI op f3 rd rs1 imm) = op := by
  unfold opcodeField encodeI
  exact (fieldBelow _ _ _ _ (by decide)).trans BitVec.extractLsb'_eq_self

/-! ## Shift -/

@[simp] theorem funct7Field_encodeShift (f7 : BitVec 7) (f3 : BitVec 3) (rd rs1 : RegIdx) (shamt : BitVec 5) :
    funct7Field (encodeShift f7 f3 rd rs1 shamt) = f7 := by
  unfold funct7Field encodeShift
  iterate 5 refine (fieldAbove _ _ _ _ (by decide)).trans ?_
  exact BitVec.extractLsb'_eq_self

@[simp] theorem shamtField_encodeShift (f7 : BitVec 7) (f3 : BitVec 3) (rd rs1 : RegIdx) (shamt : BitVec 5) :
    shamtField (encodeShift f7 f3 rd rs1 shamt) = shamt := by
  unfold shamtField encodeShift
  iterate 4 refine (fieldAbove _ _ _ _ (by decide)).trans ?_
  exact (fieldBelow _ _ _ _ (by decide)).trans BitVec.extractLsb'_eq_self

@[simp] theorem rs1Field_encodeShift (f7 : BitVec 7) (f3 : BitVec 3) (rd rs1 : RegIdx) (shamt : BitVec 5) :
    rs1Field (encodeShift f7 f3 rd rs1 shamt) = rs1 := by
  refine regOfBits_eq ?_
  unfold encodeShift
  iterate 3 refine (fieldAbove _ _ _ _ (by decide)).trans ?_
  exact (fieldBelow _ _ _ _ (by decide)).trans BitVec.extractLsb'_eq_self

@[simp] theorem funct3Field_encodeShift (f7 : BitVec 7) (f3 : BitVec 3) (rd rs1 : RegIdx) (shamt : BitVec 5) :
    funct3Field (encodeShift f7 f3 rd rs1 shamt) = f3 := by
  unfold funct3Field encodeShift
  iterate 2 refine (fieldAbove _ _ _ _ (by decide)).trans ?_
  exact (fieldBelow _ _ _ _ (by decide)).trans BitVec.extractLsb'_eq_self

@[simp] theorem rdField_encodeShift (f7 : BitVec 7) (f3 : BitVec 3) (rd rs1 : RegIdx) (shamt : BitVec 5) :
    rdField (encodeShift f7 f3 rd rs1 shamt) = rd := by
  refine regOfBits_eq ?_
  unfold encodeShift
  refine (fieldAbove _ _ _ _ (by decide)).trans ?_
  exact (fieldBelow _ _ _ _ (by decide)).trans BitVec.extractLsb'_eq_self

@[simp] theorem opcodeField_encodeShift (f7 : BitVec 7) (f3 : BitVec 3) (rd rs1 : RegIdx) (shamt : BitVec 5) :
    opcodeField (encodeShift f7 f3 rd rs1 shamt) = 0x13#7 := by
  unfold opcodeField encodeShift
  exact (fieldBelow _ _ _ _ (by decide)).trans BitVec.extractLsb'_eq_self

@[simp] theorem altBit_encodeShift (f7 : BitVec 7) (f3 : BitVec 3) (rd rs1 : RegIdx) (shamt : BitVec 5) :
    altBit (encodeShift f7 f3 rd rs1 shamt) = f7.getLsbD 5 := by
  unfold altBit encodeShift
  iterate 5 refine (bitAbove _ _ _ (by decide)).trans ?_
  rfl

/-! ## S -/

@[simp] theorem rs2Field_encodeS (f3 : BitVec 3) (rs1 rs2 : RegIdx) (imm : BitVec 12) :
    rs2Field (encodeS f3 rs1 rs2 imm) = rs2 := by
  refine regOfBits_eq ?_
  unfold encodeS
  iterate 4 refine (fieldAbove _ _ _ _ (by decide)).trans ?_
  exact (fieldBelow _ _ _ _ (by decide)).trans BitVec.extractLsb'_eq_self

@[simp] theorem rs1Field_encodeS (f3 : BitVec 3) (rs1 rs2 : RegIdx) (imm : BitVec 12) :
    rs1Field (encodeS f3 rs1 rs2 imm) = rs1 := by
  refine regOfBits_eq ?_
  unfold encodeS
  iterate 3 refine (fieldAbove _ _ _ _ (by decide)).trans ?_
  exact (fieldBelow _ _ _ _ (by decide)).trans BitVec.extractLsb'_eq_self

@[simp] theorem funct3Field_encodeS (f3 : BitVec 3) (rs1 rs2 : RegIdx) (imm : BitVec 12) :
    funct3Field (encodeS f3 rs1 rs2 imm) = f3 := by
  unfold funct3Field encodeS
  iterate 2 refine (fieldAbove _ _ _ _ (by decide)).trans ?_
  exact (fieldBelow _ _ _ _ (by decide)).trans BitVec.extractLsb'_eq_self

@[simp] theorem opcodeField_encodeS (f3 : BitVec 3) (rs1 rs2 : RegIdx) (imm : BitVec 12) :
    opcodeField (encodeS f3 rs1 rs2 imm) = 0x23#7 := by
  unfold opcodeField encodeS
  exact (fieldBelow _ _ _ _ (by decide)).trans BitVec.extractLsb'_eq_self

@[simp] theorem immSField_encodeS (f3 : BitVec 3) (rs1 rs2 : RegIdx) (imm : BitVec 12) : immSField (encodeS f3 rs1 rs2 imm) = imm := by
  have hi : (encodeS f3 rs1 rs2 imm).extractLsb' 25 7 = imm.extractLsb' 5 7 := by
    unfold encodeS
    iterate 5 refine (fieldAbove _ _ _ _ (by decide)).trans ?_
    exact BitVec.extractLsb'_eq_self
  have lo : (encodeS f3 rs1 rs2 imm).extractLsb' 7 5 = imm.extractLsb' 0 5 := by
    unfold encodeS
    refine (fieldAbove _ _ _ _ (by decide)).trans ?_
    exact (fieldBelow _ _ _ _ (by decide)).trans BitVec.extractLsb'_eq_self
  rw [immSField, hi, lo]
  exact join12 imm

/-! ## B -/

@[simp] theorem rs2Field_encodeB (f3 : BitVec 3) (rs1 rs2 : RegIdx) (imm : BitVec 13) :
    rs2Field (encodeB f3 rs1 rs2 imm) = rs2 := by
  refine regOfBits_eq ?_
  unfold encodeB
  iterate 5 refine (fieldAbove _ _ _ _ (by decide)).trans ?_
  exact (fieldBelow _ _ _ _ (by decide)).trans BitVec.extractLsb'_eq_self

@[simp] theorem rs1Field_encodeB (f3 : BitVec 3) (rs1 rs2 : RegIdx) (imm : BitVec 13) :
    rs1Field (encodeB f3 rs1 rs2 imm) = rs1 := by
  refine regOfBits_eq ?_
  unfold encodeB
  iterate 4 refine (fieldAbove _ _ _ _ (by decide)).trans ?_
  exact (fieldBelow _ _ _ _ (by decide)).trans BitVec.extractLsb'_eq_self

@[simp] theorem funct3Field_encodeB (f3 : BitVec 3) (rs1 rs2 : RegIdx) (imm : BitVec 13) :
    funct3Field (encodeB f3 rs1 rs2 imm) = f3 := by
  unfold funct3Field encodeB
  iterate 3 refine (fieldAbove _ _ _ _ (by decide)).trans ?_
  exact (fieldBelow _ _ _ _ (by decide)).trans BitVec.extractLsb'_eq_self

@[simp] theorem opcodeField_encodeB (f3 : BitVec 3) (rs1 rs2 : RegIdx) (imm : BitVec 13) :
    opcodeField (encodeB f3 rs1 rs2 imm) = 0x63#7 := by
  unfold opcodeField encodeB
  exact (fieldBelow _ _ _ _ (by decide)).trans BitVec.extractLsb'_eq_self

theorem immBField_encodeB (f3 : BitVec 3) (rs1 rs2 : RegIdx) (imm : BitVec 13) (h : imm.getLsbD 0 = false) :
    immBField (encodeB f3 rs1 rs2 imm) = imm := by
  have b12 : (encodeB f3 rs1 rs2 imm).extractLsb' 31 1 = imm.extractLsb' 12 1 := by
    unfold encodeB
    iterate 7 refine (fieldAbove _ _ _ _ (by decide)).trans ?_
    exact BitVec.extractLsb'_eq_self
  have b11 : (encodeB f3 rs1 rs2 imm).extractLsb' 7 1 = imm.extractLsb' 11 1 := by
    unfold encodeB
    refine (fieldAbove _ _ _ _ (by decide)).trans ?_
    exact (fieldBelow _ _ _ _ (by decide)).trans BitVec.extractLsb'_eq_self
  have b10 : (encodeB f3 rs1 rs2 imm).extractLsb' 25 6 = imm.extractLsb' 5 6 := by
    unfold encodeB
    iterate 6 refine (fieldAbove _ _ _ _ (by decide)).trans ?_
    exact (fieldBelow _ _ _ _ (by decide)).trans BitVec.extractLsb'_eq_self
  have b4 : (encodeB f3 rs1 rs2 imm).extractLsb' 8 4 = imm.extractLsb' 1 4 := by
    unfold encodeB
    iterate 2 refine (fieldAbove _ _ _ _ (by decide)).trans ?_
    exact (fieldBelow _ _ _ _ (by decide)).trans BitVec.extractLsb'_eq_self
  rw [immBField, b12, b11, b10, b4]
  exact join13 imm h

/-! ## U -/

@[simp] theorem immUField_encodeU (op : BitVec 7) (rd : RegIdx) (imm : BitVec 20) :
    immUField (encodeU op rd imm) = imm := by
  unfold immUField encodeU
  iterate 2 refine (fieldAbove _ _ _ _ (by decide)).trans ?_
  exact BitVec.extractLsb'_eq_self

@[simp] theorem rdField_encodeU (op : BitVec 7) (rd : RegIdx) (imm : BitVec 20) :
    rdField (encodeU op rd imm) = rd := by
  refine regOfBits_eq ?_
  unfold encodeU
  refine (fieldAbove _ _ _ _ (by decide)).trans ?_
  exact (fieldBelow _ _ _ _ (by decide)).trans BitVec.extractLsb'_eq_self

@[simp] theorem opcodeField_encodeU (op : BitVec 7) (rd : RegIdx) (imm : BitVec 20) :
    opcodeField (encodeU op rd imm) = op := by
  unfold opcodeField encodeU
  exact (fieldBelow _ _ _ _ (by decide)).trans BitVec.extractLsb'_eq_self

/-! ## J -/

@[simp] theorem rdField_encodeJ (rd : RegIdx) (imm : BitVec 21) :
    rdField (encodeJ rd imm) = rd := by
  refine regOfBits_eq ?_
  unfold encodeJ
  refine (fieldAbove _ _ _ _ (by decide)).trans ?_
  exact (fieldBelow _ _ _ _ (by decide)).trans BitVec.extractLsb'_eq_self

@[simp] theorem opcodeField_encodeJ (rd : RegIdx) (imm : BitVec 21) :
    opcodeField (encodeJ rd imm) = 0x6F#7 := by
  unfold opcodeField encodeJ
  exact (fieldBelow _ _ _ _ (by decide)).trans BitVec.extractLsb'_eq_self

theorem immJField_encodeJ (rd : RegIdx) (imm : BitVec 21) (h : imm.getLsbD 0 = false) : immJField (encodeJ rd imm) = imm := by
  have b20 : (encodeJ rd imm).extractLsb' 31 1 = imm.extractLsb' 20 1 := by
    unfold encodeJ
    iterate 5 refine (fieldAbove _ _ _ _ (by decide)).trans ?_
    exact BitVec.extractLsb'_eq_self
  have b19 : (encodeJ rd imm).extractLsb' 12 8 = imm.extractLsb' 12 8 := by
    unfold encodeJ
    iterate 2 refine (fieldAbove _ _ _ _ (by decide)).trans ?_
    exact (fieldBelow _ _ _ _ (by decide)).trans BitVec.extractLsb'_eq_self
  have b11 : (encodeJ rd imm).extractLsb' 20 1 = imm.extractLsb' 11 1 := by
    unfold encodeJ
    iterate 3 refine (fieldAbove _ _ _ _ (by decide)).trans ?_
    exact (fieldBelow _ _ _ _ (by decide)).trans BitVec.extractLsb'_eq_self
  have b10 : (encodeJ rd imm).extractLsb' 21 10 = imm.extractLsb' 1 10 := by
    unfold encodeJ
    iterate 4 refine (fieldAbove _ _ _ _ (by decide)).trans ?_
    exact (fieldBelow _ _ _ _ (by decide)).trans BitVec.extractLsb'_eq_self
  rw [immJField, b20, b19, b11, b10]
  exact join21 imm h

/-! ## The classification, by opcode (R81, R83) -/

theorem decode_mulDiv {w : Word} (h : opcodeField w = 0x33#7) (h7 : funct7Field w = 0b0000001#7) :
    decode true w = .instr (mulDivOf (funct3Field w) (rdField w) (rs1Field w) (rs2Field w)) := by
  rw [decode, h, h7]; rfl

theorem decode_r {extM : Bool} {w : Word} (h : opcodeField w = 0x33#7)
    (h7 : ¬ (extM = true ∧ funct7Field w = 0b0000001#7)) :
    decode extM w = .instr (rTypeOf (funct3Field w) (altBit w) (rdField w) (rs1Field w) (rs2Field w)) := by
  have hb : (extM && funct7Field w == 0b0000001#7) = false := by
    rw [Bool.eq_false_iff]; simpa using h7
  rw [decode, h, hb]; rfl

theorem decode_i {extM : Bool} {w : Word} (h : opcodeField w = 0x13#7) :
    decode extM w = .instr (iTypeOf (funct3Field w) (altBit w) (rdField w) (rs1Field w) (immIField w) (shamtField w)) := by
  rw [decode, h]; rfl

theorem decode_load {extM : Bool} {w : Word} (h : opcodeField w = 0x03#7) :
    decode extM w = loadOf (funct3Field w) (rdField w) (rs1Field w) (immIField w) := by
  rw [decode, h]; rfl

theorem decode_store {extM : Bool} {w : Word} (h : opcodeField w = 0x23#7) :
    decode extM w = storeOf (funct3Field w) (rs1Field w) (rs2Field w) (immSField w) := by
  rw [decode, h]; rfl

theorem decode_branch {extM : Bool} {w : Word} (h : opcodeField w = 0x63#7) :
    decode extM w = branchOf (funct3Field w) (rs1Field w) (rs2Field w) (immBField w) := by
  rw [decode, h]; rfl

theorem decode_lui {extM : Bool} {w : Word} (h : opcodeField w = 0x37#7) :
    decode extM w = .instr (.lui (rdField w) (immUField w)) := by
  rw [decode, h]; rfl

theorem decode_auipc {extM : Bool} {w : Word} (h : opcodeField w = 0x17#7) :
    decode extM w = .instr (.auipc (rdField w) (immUField w)) := by
  rw [decode, h]; rfl

theorem decode_jal {extM : Bool} {w : Word} (h : opcodeField w = 0x6F#7) :
    decode extM w = .instr (.jal (rdField w) (immJField w)) := by
  rw [decode, h]; rfl

theorem decode_jalr {extM : Bool} {w : Word} (h : opcodeField w = 0x67#7) :
    decode extM w = .instr (.jalr (rdField w) (rs1Field w) (immIField w)) := by
  rw [decode, h]; rfl

theorem decode_fence {extM : Bool} {w : Word} (h : opcodeField w = 0x0F#7) :
    decode extM w = .instr .fence := by
  rw [decode, h]; rfl

/-- The ten opcodes of R81. -/
def knownOpcodes : List (BitVec 7) :=
  [0x33#7, 0x13#7, 0x03#7, 0x23#7, 0x63#7, 0x37#7, 0x17#7, 0x6F#7, 0x67#7, 0x0F#7]

/-- A proof by the opcode of a word: one of the ten, or another. -/
theorem by_opcode {P : Prop} (op : BitVec 7) (r : op = 0x33#7 → P) (i : op = 0x13#7 → P) (l : op = 0x03#7 → P)
    (s : op = 0x23#7 → P) (b : op = 0x63#7 → P) (lui : op = 0x37#7 → P) (auipc : op = 0x17#7 → P)
    (jal : op = 0x6F#7 → P) (jalr : op = 0x67#7 → P) (fence : op = 0x0F#7 → P) (other : op ∉ knownOpcodes → P) : P := by
  by_cases h : op ∈ knownOpcodes
  · simp only [knownOpcodes, List.mem_cons, List.not_mem_nil, or_false] at h
    rcases h with h | h | h | h | h | h | h | h | h | h
    exacts [r h, i h, l h, s h, b h, lui h, auipc h, jal h, jalr h, fence h]
  · exact other h

theorem decode_otherOpcode {extM : Bool} {w : Word} (h : opcodeField w ∉ knownOpcodes) :
    decode extM w = .undefined .opcode := by
  simp only [knownOpcodes, List.mem_cons, List.not_mem_nil, or_false, not_or] at h
  rw [decode]
  split <;> simp_all

/-! ## Words and their bytes -/

theorem wordOfBytes_wordBytes (w : Word) :
    wordOfBytes (w.extractLsb' 0 8) (w.extractLsb' 8 8) (w.extractLsb' 16 8) (w.extractLsb' 24 8) = w := by
  have : (w.extractLsb' 24 8 ++ w.extractLsb' 16 8 ++ w.extractLsb' 8 8 ++ w.extractLsb' 0 8 :
      BitVec (8 + 8 + 8 + 8)) = w := by
    apply BitVec.eq_of_getLsbD_eq
    intro i hi
    simp only [BitVec.getLsbD_append, BitVec.getLsbD_extractLsb']
    interval_cases i <;> simp
  exact this

/-- The decoder on the bytes of a word is the decoder on the word. -/
theorem decodeBytes_wordBytes (extM : Bool) (w : Word) (rest : List Byte) :
    decodeBytes extM (wordBytes w ++ rest) = some (decode extM w, rest) := by
  show some (decode extM (wordOfBytes _ _ _ _), rest) = _
  rw [wordOfBytes_wordBytes]

end Sys2Proof
end

