-- ==== Sys2Proof/Laws/Memory.lean ====
section
/-! SUPPORT. The memory: reading after writing, the canonical form, and what an access of several bytes reads and
writes. -/

namespace Sys2Proof.Machine

/-! ## One byte -/

theorem readCells_erase_same (a : Nat) (cs : List Host.Cell) : readCells a (eraseCells a cs) = Memory.background := by
  induction cs with
  | nil => rfl
  | cons c cs ih =>
    obtain ⟨b, v⟩ := c
    by_cases h : b = a <;> simp [eraseCells, readCells, h, ih]

theorem readCells_erase_other {a b : Nat} (h : b ≠ a) (cs : List Host.Cell) :
    readCells b (eraseCells a cs) = readCells b cs := by
  induction cs with
  | nil => rfl
  | cons c cs ih =>
    obtain ⟨x, v⟩ := c
    by_cases hx : x = a
    · subst hx; simp [eraseCells, readCells, Ne.symm h, ih]
    · simp [eraseCells, readCells, hx, ih]

theorem readCells_insert_same (a : Nat) (v : Byte) (cs : List Host.Cell) : readCells a (insertCells a v cs) = v := by
  induction cs with
  | nil => simp [insertCells, readCells]
  | cons c cs ih =>
    obtain ⟨b, u⟩ := c
    rcases Nat.lt_trichotomy b a with h | h | h
    · simp [insertCells, readCells, h, Nat.ne_of_lt h, ih]
    · simp [insertCells, readCells, h]
    · simp [insertCells, readCells, Nat.lt_asymm h, Nat.ne_of_gt h]

theorem readCells_insert_other {a b : Nat} (h : b ≠ a) (v : Byte) (cs : List Host.Cell) :
    readCells b (insertCells a v cs) = readCells b cs := by
  induction cs with
  | nil => simp [insertCells, readCells, Ne.symm h]
  | cons c cs ih =>
    obtain ⟨x, u⟩ := c
    rcases Nat.lt_trichotomy x a with hx | hx | hx
    · simp [insertCells, readCells, hx, ih]
    · subst hx; simp [insertCells, readCells, Ne.symm h]
    · simp [insertCells, readCells, Nat.lt_asymm hx, Nat.ne_of_gt hx, Ne.symm h]

/-- A read of the byte written gives the value written. -/
@[simp] theorem Memory.read_write_same (m : Memory) (a : Nat) (v : Byte) : (m.write a v).read a = v := by
  by_cases h : v = Memory.background
  · simp [Memory.read, Memory.write, h, readCells_erase_same]
  · simp [Memory.read, Memory.write, h, readCells_insert_same]

/-- A write leaves every other byte alone. -/
theorem Memory.read_write_other (m : Memory) {a b : Nat} (h : b ≠ a) (v : Byte) :
    (m.write a v).read b = m.read b := by
  by_cases hv : v = Memory.background
  · simp [Memory.read, Memory.write, hv, readCells_erase_other h]
  · simp [Memory.read, Memory.write, hv, readCells_insert_other h]

@[simp] theorem Memory.read_empty (a : Nat) : Memory.empty.read a = Memory.background := rfl

/-! ## The canonical form -/

theorem cellsWf_cons (lo a : Nat) (v : Byte) (cs : List Host.Cell) :
    cellsWf lo ((a, v) :: cs) = true ↔ lo ≤ a ∧ v ≠ Memory.background ∧ cellsWf (a + 1) cs = true := by
  simp [cellsWf, and_assoc]

theorem cellsWf_mono {lo lo' : Nat} (h : lo' ≤ lo) {cs : List Host.Cell} (hc : cellsWf lo cs = true) :
    cellsWf lo' cs = true := by
  cases cs with
  | nil => rfl
  | cons c cs =>
    obtain ⟨a, v⟩ := c
    rw [cellsWf_cons] at hc ⊢
    exact ⟨h.trans hc.1, hc.2⟩

theorem cellsWf_erase (a : Nat) {cs : List Host.Cell} :
    ∀ {lo : Nat}, cellsWf lo cs = true → cellsWf lo (eraseCells a cs) = true := by
  induction cs with
  | nil => intro lo h; exact h
  | cons c cs ih =>
    obtain ⟨b, v⟩ := c
    intro lo h
    rw [cellsWf_cons] at h
    by_cases hb : b = a
    · simpa [eraseCells, hb] using cellsWf_mono (by omega) (ih h.2.2)
    · simpa [eraseCells, hb, cellsWf_cons] using ⟨h.1, h.2.1, ih h.2.2⟩

theorem cellsWf_insert (a : Nat) {v : Byte} (hv : v ≠ Memory.background) {cs : List Host.Cell} :
    ∀ {lo : Nat}, lo ≤ a → cellsWf lo cs = true → cellsWf lo (insertCells a v cs) = true := by
  induction cs with
  | nil => intro lo hlo _; simp [insertCells, hlo, hv, cellsWf]
  | cons c cs ih =>
    obtain ⟨b, u⟩ := c
    intro lo hlo h
    rw [cellsWf_cons] at h
    rcases Nat.lt_trichotomy b a with hb | hb | hb
    · simpa [insertCells, hb, cellsWf_cons] using ⟨h.1, h.2.1, ih (by omega) h.2.2⟩
    · subst hb; simpa [insertCells, cellsWf_cons, hv] using ⟨h.1, h.2.2⟩
    · simp only [insertCells, Nat.lt_asymm hb, Nat.ne_of_gt hb, if_false, cellsWf_cons]
      exact ⟨hlo, hv, by omega, h.2⟩

/-- A write keeps the canonical form. -/
theorem Memory.wf_write {m : Memory} (h : m.wf = true) (a : Nat) (v : Byte) : (m.write a v).wf = true := by
  by_cases hv : v = Memory.background
  · simpa [Memory.wf, Memory.write, hv] using cellsWf_erase a h
  · simpa [Memory.wf, Memory.write, hv] using cellsWf_insert a hv (Nat.zero_le a) h

@[simp] theorem Memory.wf_empty : Memory.empty.wf = true := rfl

theorem mem_eraseCells {a : Nat} {c : Host.Cell} {cs : List Host.Cell} (h : c ∈ eraseCells a cs) : c ∈ cs := by
  induction cs with
  | nil => exact h
  | cons x cs ih =>
    obtain ⟨b, v⟩ := x
    by_cases hb : b = a
    · exact List.mem_cons_of_mem _ (ih (by simpa [eraseCells, hb] using h))
    · rcases List.mem_cons.1 (by simpa [eraseCells, hb] using h) with rfl | h
      · exact List.mem_cons_self
      · exact List.mem_cons_of_mem _ (ih h)

theorem mem_insertCells {a : Nat} {v : Byte} {c : Host.Cell} {cs : List Host.Cell} (h : c ∈ insertCells a v cs) :
    c = (a, v) ∨ c ∈ cs := by
  induction cs with
  | nil => simpa [insertCells] using h
  | cons x cs ih =>
    obtain ⟨b, u⟩ := x
    rcases Nat.lt_trichotomy b a with hb | hb | hb
    · rcases List.mem_cons.1 (by simpa [insertCells, hb] using h) with rfl | h
      · simp
      · rcases ih h with h | h <;> simp [h]
    · rcases List.mem_cons.1 (by simpa [insertCells, hb] using h) with rfl | h <;> simp_all
    · simpa [insertCells, Nat.lt_asymm hb, Nat.ne_of_gt hb] using h

theorem cellsInWindow_write {c : Config} {m : Memory} (h : cellsInWindow c m = true) {a : Nat}
    (ha : inWindow c a = true) (v : Byte) : cellsInWindow c (m.write a v) = true := by
  simp only [cellsInWindow, List.all_eq_true] at h ⊢
  intro x hx
  by_cases hv : v = Memory.background
  · exact h x (mem_eraseCells (by simpa [Memory.write, hv] using hx))
  · rcases mem_insertCells (by simpa [Memory.write, hv] using hx) with rfl | hx
    · exact ha
    · exact h x hx

/-! ## Several bytes -/

theorem windowHolds_iff (c : Config) (a n : Nat) :
    windowHolds c a n = true ↔ ∀ k, k < n → inWindow c (a + k) = true := by
  induction n with
  | zero => simp [windowHolds]
  | succ n ih =>
    simp only [windowHolds, Bool.and_eq_true, ih]
    constructor
    · rintro ⟨h, hn⟩ k hk
      rcases Nat.lt_succ_iff_lt_or_eq.1 hk with hk | rfl
      · exact h k hk
      · exact hn
    · exact fun h => ⟨fun k hk => h k (by omega), h n (by omega)⟩

theorem State.holds_iff (s : State) (addr : Word) (n : Nat) :
    windowHolds s.cfg addr.toNat n = true ↔ s.Holds addr n := windowHolds_iff _ _ _

/-- The bound of 00_scope.md R9, as arithmetic. -/
theorem Config.wf_iff (c : Config) : c.wf = true ↔ 1 ≤ c.memSize ∧ c.memBase.toNat + c.memSize < 2 ^ 32 := by
  rw [Config.wf, Bool.and_eq_true, decide_eq_true_eq, decide_eq_true_eq]
  exact Iff.rfl

/-- An access that fits the window, as arithmetic. -/
theorem State.holds_succ_iff (s : State) (addr : Word) (n : Nat) :
    s.Holds addr (n + 1) ↔ s.cfg.memBase.toNat ≤ addr.toNat ∧ addr.toNat + n < s.cfg.memEnd := by
  simp only [State.Holds, inWindow, Bool.and_eq_true, decide_eq_true_eq]
  constructor
  · intro h
    exact ⟨by simpa using (h 0 (by omega)).1, (h n (by omega)).2⟩
  · rintro ⟨h1, h2⟩ k hk
    omega

/-- The stored bytes, lowest address first (20_memory.md R44). -/
theorem Memory.read_writeLE_inside (m : Memory) (a : Nat) (v : Word) (n k : Nat) (h : k < n) :
    (m.writeLE a v n).read (a + k) = v.extractLsb' (8 * k) 8 := by
  induction n with
  | zero => omega
  | succ n ih =>
    by_cases hk : k = n
    · subst hk; simp only [Memory.writeLE, Memory.read_write_same]
      ext i hi; simp [BitVec.getElem_eq_testBit_toNat, BitVec.toNat_setWidth]
    · simp only [Memory.writeLE]
      rw [Memory.read_write_other _ (by omega), ih (by omega)]

/-- Every byte outside the stored ones reads as before (20_memory.md R45). -/
theorem Memory.read_writeLE_outside (m : Memory) (a b : Nat) (v : Word) (n : Nat) (h : b < a ∨ a + n ≤ b) :
    (m.writeLE a v n).read b = m.read b := by
  induction n with
  | zero => rfl
  | succ n ih => simp only [Memory.writeLE]; rw [Memory.read_write_other _ (by omega), ih (by omega)]

theorem Memory.wf_writeLE {m : Memory} (h : m.wf = true) (a : Nat) (v : Word) (n : Nat) :
    (m.writeLE a v n).wf = true := by
  induction n with
  | zero => exact h
  | succ n ih => exact Memory.wf_write ih _ _

theorem cellsInWindow_writeLE {c : Config} {m : Memory} (h : cellsInWindow c m = true) (a : Nat) (v : Word) (n : Nat)
    (hw : windowHolds c a n = true) : cellsInWindow c (m.writeLE a v n) = true := by
  induction n with
  | zero => exact h
  | succ n ih =>
    simp only [windowHolds, Bool.and_eq_true] at hw
    exact cellsInWindow_write (ih hw.1) hw.2 _

/-- Bit `i` of a little-endian read is bit `i mod 8` of byte `i / 8` (20_memory.md R43). -/
theorem Memory.getLsbD_readLE (m : Memory) (a n i : Nat) (hn : n ≤ 4) :
    (m.readLE a n).getLsbD i = (decide (i < 8 * n) && (m.read (a + i / 8)).getLsbD (i % 8)) := by
  induction n with
  | zero => simp [Memory.readLE]
  | succ n ih =>
    simp only [Memory.readLE, BitVec.getLsbD_or, ih (by omega), BitVec.getLsbD_shiftLeft, BitVec.getLsbD_setWidth]
    by_cases h1 : i < 8 * n
    · simp [h1, show i < 8 * (n + 1) by omega]
    · by_cases h2 : i < 8 * (n + 1)
      · have hd : i / 8 = n := by omega
        have hm : i - 8 * n = i % 8 := by omega
        simp [h1, h2, hd, hm, show i < 32 by omega, show i % 8 < 32 by omega]
      · have : (m.read (a + n)).getLsbD (i - 8 * n) = false := BitVec.getLsbD_of_ge _ _ (by omega)
        simp [h1, h2, this]

theorem Memory.readLE_one (m : Memory) (a : Nat) : m.readLE a 1 = (m.read a).setWidth 32 := by
  simp [Memory.readLE]

theorem Memory.readLE_two (m : Memory) (a : Nat) : m.readLE a 2 = (m.read (a + 1) ++ m.read a).setWidth 32 := by
  apply BitVec.eq_of_getLsbD_eq
  intro i hi
  rw [Memory.getLsbD_readLE _ _ _ _ (by omega)]
  simp only [BitVec.getLsbD_setWidth, BitVec.getLsbD_append, hi, decide_true, Bool.true_and]
  by_cases h1 : i < 8
  · simp [h1, show i < 16 by omega, show i / 8 = 0 by omega, show i % 8 = i by omega]
  · by_cases h2 : i < 16
    · simp [h1, h2, show i / 8 = 1 by omega, show i % 8 = i - 8 by omega]
    · simp [h1, h2, BitVec.getLsbD_of_ge (m.read (a + 1)) (i - 8) (by omega)]

theorem Memory.readLE_four (m : Memory) (a : Nat) :
    m.readLE a 4 = m.read (a + 3) ++ m.read (a + 2) ++ m.read (a + 1) ++ m.read a := by
  apply BitVec.eq_of_getLsbD_eq
  intro i hi
  rw [Memory.getLsbD_readLE _ _ _ _ (by omega)]
  simp only [BitVec.getLsbD_append, show i < 8 * 4 by omega, decide_true, Bool.true_and]
  by_cases h1 : i < 8
  · simp [h1, show i / 8 = 0 by omega, show i % 8 = i by omega]
  · by_cases h2 : i < 16
    · simp [h1, show i - 8 < 8 by omega, show i / 8 = 1 by omega, show i % 8 = i - 8 by omega]
    · by_cases h3 : i < 24
      · simp [h1, show ¬ i - 8 < 8 by omega, show i - 8 - 8 < 8 by omega, show i / 8 = 2 by omega,
          show i % 8 = i - 8 - 8 by omega]
      · simp [h1, show ¬ i - 8 < 8 by omega, show ¬ i - 8 - 8 < 8 by omega, show i / 8 = 3 by omega,
          show i % 8 = i - 8 - 8 - 8 by omega]

/-- Bytes that hold a value's low bytes read back as its low bits. -/
theorem Memory.getLsbD_readLE_stored {m : Memory} {a n : Nat} {v : Word} (hn : n ≤ 4)
    (h : ∀ k, k < n → m.read (a + k) = v.extractLsb' (8 * k) 8) (i : Nat) :
    (m.readLE a n).getLsbD i = (decide (i < 8 * n) && v.getLsbD i) := by
  rw [Memory.getLsbD_readLE _ _ _ _ hn]
  by_cases hi : i < 8 * n
  · rw [h (i / 8) (by omega)]
    simp [hi, show i % 8 < 8 by omega, show 8 * (i / 8) + i % 8 = i by omega]
  · simp [hi]

/-- A word stored is the word read back. -/
theorem Memory.readLE_writeLE_four (m : Memory) (a : Nat) (v : Word) : (m.writeLE a v 4).readLE a 4 = v := by
  apply BitVec.eq_of_getLsbD_eq
  intro i hi
  rw [Memory.getLsbD_readLE_stored (by decide) (fun k hk => Memory.read_writeLE_inside _ _ _ _ k hk)]
  simp [show i < 8 * 4 by omega]

/-! ## Two canonical memories that read alike are equal -/

theorem readCells_below {lo a : Nat} (h : a < lo) {cs : List Host.Cell} (hc : cellsWf lo cs = true) :
    readCells a cs = Memory.background := by
  induction cs generalizing lo with
  | nil => rfl
  | cons c cs ih =>
    obtain ⟨b, v⟩ := c
    rw [cellsWf_cons] at hc
    simp [readCells, show b ≠ a by omega, ih (by omega : a < b + 1) hc.2.2]

/-! ## The accessor: what an answer says -/

theorem memRead_ok {c : Config} {m : Memory} {kind : AccessKind} {addr : Word} {w : AccessWidth} {v : Word} :
    memRead c m kind addr w = .ok v ↔ windowHolds c addr.toNat w.bytes = true ∧ v = m.readLE addr.toNat w.bytes := by
  by_cases h : windowHolds c addr.toNat w.bytes = true <;> simp [memRead, h, eq_comm]

theorem memRead_error {c : Config} {m : Memory} {kind : AccessKind} {addr : Word} {w : AccessWidth} {f : Fault} :
    memRead c m kind addr w = .error f ↔ windowHolds c addr.toNat w.bytes = false ∧ f = .memFault kind addr w := by
  by_cases h : windowHolds c addr.toNat w.bytes = true <;> simp [memRead, h, eq_comm]

theorem memWrite_ok {c : Config} {m m' : Memory} {addr : Word} {w : AccessWidth} {v : Word} :
    memWrite c m addr w v = .ok m' ↔ windowHolds c addr.toNat w.bytes = true ∧ m' = m.writeLE addr.toNat v w.bytes := by
  by_cases h : windowHolds c addr.toNat w.bytes = true <;> simp [memWrite, h, eq_comm]

theorem memWrite_error {c : Config} {m : Memory} {addr : Word} {w : AccessWidth} {v : Word} {f : Fault} :
    memWrite c m addr w v = .error f ↔ windowHolds c addr.toNat w.bytes = false ∧ f = .memFault .store addr w := by
  by_cases h : windowHolds c addr.toNat w.bytes = true <;> simp [memWrite, h, eq_comm]

end Sys2Proof.Machine
end

