-- ==== Sys2Proof/Laws/State.lean ====
section
/-! SUPPORT. One lemma per field per update of the state, and the register file's read after a commit. -/

namespace Sys2Proof.Machine

@[simp] theorem State.withMem_regs (s : State) (m : Memory) : (s.withMem m).regs = s.regs := rfl
@[simp] theorem State.withMem_pc (s : State) (m : Memory) : (s.withMem m).pc = s.pc := rfl
@[simp] theorem State.withMem_mem (s : State) (m : Memory) : (s.withMem m).mem = m := rfl
@[simp] theorem State.withMem_faultMark (s : State) (m : Memory) : (s.withMem m).faultMark = s.faultMark := rfl
@[simp] theorem State.withMem_cfg (s : State) (m : Memory) : (s.withMem m).cfg = s.cfg := rfl

@[simp] theorem State.committed_regs (s : State) (e : Effect) (m : Memory) : (s.committed e m).regs = zeroSlot (writeBack e.wr s.regs) := rfl
@[simp] theorem State.committed_pc (s : State) (e : Effect) (m : Memory) : (s.committed e m).pc = e.next := rfl
@[simp] theorem State.committed_mem (s : State) (e : Effect) (m : Memory) : (s.committed e m).mem = m := rfl
@[simp] theorem State.committed_faultMark (s : State) (e : Effect) (m : Memory) : (s.committed e m).faultMark = s.faultMark := rfl
@[simp] theorem State.committed_cfg (s : State) (e : Effect) (m : Memory) : (s.committed e m).cfg = s.cfg := rfl

@[simp] theorem raiseFault_regs (f : Fault) (s : State) : (raiseFault f s).regs = s.regs := rfl
@[simp] theorem raiseFault_pc (f : Fault) (s : State) : (raiseFault f s).pc = s.pc := rfl
@[simp] theorem raiseFault_mem (f : Fault) (s : State) : (raiseFault f s).mem = s.mem := rfl
@[simp] theorem raiseFault_faultMark (f : Fault) (s : State) : (raiseFault f s).faultMark = some f := rfl
@[simp] theorem raiseFault_cfg (f : Fault) (s : State) : (raiseFault f s).cfg = s.cfg := rfl

@[simp] theorem State.initialised_regs (s : State) : s.initialised.regs = writeBack (some (2, BitVec.ofNat 32 s.cfg.memEnd)) s.regs := rfl
@[simp] theorem State.initialised_pc (s : State) : s.initialised.pc = s.cfg.memBase := rfl
@[simp] theorem State.initialised_mem (s : State) : s.initialised.mem = s.mem := rfl
@[simp] theorem State.initialised_faultMark (s : State) : s.initialised.faultMark = s.faultMark := rfl
@[simp] theorem State.initialised_cfg (s : State) : s.initialised.cfg = s.cfg := rfl

@[simp] theorem State.resetOf_regs (c : Config) (h : c.wf = true) : (State.resetOf c h).regs = (Vector.replicate 32 0#32).set 2 (BitVec.ofNat 32 c.memEnd) := rfl
@[simp] theorem State.resetOf_pc (c : Config) (h : c.wf = true) : (State.resetOf c h).pc = c.memBase := rfl
@[simp] theorem State.resetOf_mem (c : Config) (h : c.wf = true) : (State.resetOf c h).mem = Memory.empty := rfl
@[simp] theorem State.resetOf_faultMark (c : Config) (h : c.wf = true) : (State.resetOf c h).faultMark = none := rfl
@[simp] theorem State.resetOf_cfg (c : Config) (h : c.wf = true) : (State.resetOf c h).cfg = c := rfl

/-! ## Effects -/

@[simp] theorem writeEffect_wr (s : State) (rd : RegIdx) (v : Word) : (writeEffect s rd v).wr = some (rd, v) := rfl
@[simp] theorem writeEffect_st (s : State) (rd : RegIdx) (v : Word) : (writeEffect s rd v).st = none := rfl
@[simp] theorem writeEffect_next (s : State) (rd : RegIdx) (v : Word) : (writeEffect s rd v).next = s.pc + 4#32 := rfl
@[simp] theorem advanceEffect_wr (s : State) : (advanceEffect s).wr = none := rfl
@[simp] theorem advanceEffect_st (s : State) : (advanceEffect s).st = none := rfl
@[simp] theorem advanceEffect_next (s : State) : (advanceEffect s).next = s.pc + 4#32 := rfl

/-! ## The register file -/

/-- Slot 0 reads as 0 in every state (10_state.md R21). -/
@[simp] theorem readReg_zero (s : State) : s.readReg 0 = 0#32 := rfl

theorem readReg_of_ne (s : State) {i : RegIdx} (h : i ≠ 0) : s.readReg i = s.regs[i] := by simp [State.readReg, h]

/-- The commit leaves slot 0 zero, whatever was staged there (40_step_driver.md R95). -/
@[simp] theorem committed_slot0 (s : State) (e : Effect) (m : Memory) : (s.committed e m).regs[0] = 0#32 := by
  simp [zeroSlot]

/-- After a commit, the register written reads as the value, unless it is slot 0. -/
theorem readReg_committed_same (s : State) (e : Effect) (m : Memory) (i : RegIdx) (v : Word)
    (h : e.wr = some (i, v)) : (s.committed e m).readReg i = if i = 0 then 0#32 else v := by
  by_cases hi : i = 0
  · simp [hi]
  · have : (0 : Nat) ≠ i.val := fun h0 => hi (Fin.ext h0.symm)
    simp [readReg_of_ne _ hi, hi, h, zeroSlot, writeBack, this]

/-- After a commit, every other register reads as before. -/
theorem readReg_committed_other (s : State) (e : Effect) (m : Memory) (r : RegIdx)
    (h : ∀ i v, e.wr = some (i, v) → r ≠ i) : (s.committed e m).readReg r = s.readReg r := by
  by_cases hr : r = 0
  · simp [hr]
  · have h0 : (0 : Nat) ≠ r.val := fun h0 => hr (Fin.ext h0.symm)
    rw [readReg_of_ne _ hr, readReg_of_ne _ hr]
    rcases hw : e.wr with _ | ⟨i, v⟩
    · simp [zeroSlot, writeBack, hw, h0]
    · have hne : i.val ≠ r.val := fun hv => h i v hw (Fin.ext hv.symm)
      simp [zeroSlot, writeBack, hw, h0, hne]

/-! ## What slot 0 holds makes no difference (10_state.md R21, R22) -/

theorem readReg_setSlot0 (s : State) (v : Word) (r : RegIdx) :
    ({ s with regs := s.regs.set 0 v } : State).readReg r = s.readReg r := by
  by_cases h : r = 0
  · subst h; rfl
  · have : (0 : Nat) ≠ r.val := fun h0 => h (Fin.ext h0.symm)
    rw [readReg_of_ne _ h, readReg_of_ne _ h]
    simp [this]

theorem zeroSlot_setSlot0 (wr : Option (RegIdx × Word)) (regs : Vector Word 32) (v : Word) :
    zeroSlot (writeBack wr (regs.set 0 v)) = zeroSlot (writeBack wr regs) := by
  rcases wr with _ | ⟨i, u⟩
  · simp [zeroSlot, writeBack]
  · ext k hk
    simp only [zeroSlot, writeBack, Vector.getElem_set]
    split <;> simp_all

end Sys2Proof.Machine
end

