-- ==== Sys2Proof/Laws/Effects.lean ====
section
/-! SUPPORT. What the commit of an effect does, and one lemma per template of the instruction families: what it answers,
and everything that then changed. Proofs cite these and unfold no meaning. -/

namespace Sys2Proof.Machine

/-! ## The configuration -/

theorem onLegalConfig_legal {α : Type} {s : State} (h : s.cfg.wf = true) (go : Host.Outcome α Fault Refusal) :
    onLegalConfig s go = go := by simp [onLegalConfig, h]

theorem onLegalConfig_illegal {α : Type} {s : State} (h : s.cfg.wf = false) (go : Host.Outcome α Fault Refusal) :
    onLegalConfig s go = .refused .configNotWellFormed := by simp [onLegalConfig, h]

/-- An operation that answers next was made on a legal configuration. -/
theorem onLegalConfig_next {α : Type} {s : State} {go : Host.Outcome α Fault Refusal} {a : α}
    (h : onLegalConfig s go = .next a) : s.cfg.wf = true ∧ go = .next a := by
  by_cases hc : s.cfg.wf = true
  · exact ⟨hc, by rwa [onLegalConfig_legal hc] at h⟩
  · rw [onLegalConfig_illegal (by simpa using hc)] at h
    cases h

/-! ## The commit -/

@[simp] theorem storeEffect_none (s : State) : storeEffect none s = .ok s.mem := rfl

@[simp] theorem storeEffect_some (s : State) (addr : Word) (w : AccessWidth) (v : Word) :
    storeEffect (some (addr, w, v)) s = memWrite s.cfg s.mem addr w v := rfl

theorem commit_of_ok {e : Effect} {s : State} {m : Memory} (hc : s.cfg.wf = true) (h : storeEffect e.st s = .ok m) :
    commit e s = .next (s.committed e m) := by rw [commit, onLegalConfig_legal hc, h]

theorem commit_of_error {e : Effect} {s : State} {f : Fault} (hc : s.cfg.wf = true) (h : storeEffect e.st s = .error f) :
    commit e s = .fault f := by rw [commit, onLegalConfig_legal hc, h]

theorem commit_illegal (e : Effect) {s : State} (hc : s.cfg.wf = false) :
    commit e s = .refused .configNotWellFormed := onLegalConfig_illegal hc _

/-- If a commit answers next, the configuration is legal, the store went through and the next state is the committed one. -/
theorem commit_next {e : Effect} {s t : State} (h : commit e s = .next t) :
    s.cfg.wf = true ∧ ∃ m, storeEffect e.st s = .ok m ∧ t = s.committed e m := by
  obtain ⟨hc, -⟩ := onLegalConfig_next h
  rcases hm : storeEffect e.st s with f | m
  · simp [commit_of_error hc hm] at h
  · rw [commit_of_ok hc hm] at h
    exact ⟨hc, m, rfl, (Host.Outcome.next.inj h).symm⟩

/-- An effect that stores nothing commits. -/
theorem commit_noStore {e : Effect} {s : State} (hc : s.cfg.wf = true) (h : e.st = none) :
    commit e s = .next (s.committed e s.mem) := commit_of_ok hc (by rw [h]; rfl)

/-- A commit does not see what slot 0 holds. -/
theorem commit_setSlot0 (e : Effect) (s : State) (v : Word) :
    commit e { s with regs := s.regs.set 0 v } = commit e s := by
  have h : storeEffect e.st { s with regs := s.regs.set 0 v } = storeEffect e.st s := by
    rcases e.st with _ | ⟨a, w, u⟩ <;> rfl
  simp only [commit, onLegalConfig, h, State.committed, zeroSlot_setSlot0]

/-- An effect that stores nothing and writes `x[rd]` writes that and nothing else. -/
theorem committed_regWritten (s : State) (e : Effect) (rd : RegIdx) (v : Word) (h : e.wr = some (rd, v)) :
    RegWritten s (s.committed e s.mem) rd v e.next where
  result := readReg_committed_same s e s.mem rd v h
  otherRegs r hr := readReg_committed_other s e s.mem r (by
    intro i u hw
    rw [h] at hw
    cases hw
    exact hr)
  slot0 := committed_slot0 _ _ _
  nextPc := rfl
  memory _ := rfl
  mark := rfl
  params := rfl

/-- An effect that stores nothing and writes no register moves the pc and does nothing else. -/
theorem committed_pcMoved (s : State) (e : Effect) (h : e.wr = none) :
    PcMoved s (s.committed e s.mem) e.next where
  regs r := readReg_committed_other s e s.mem r (by simp [h])
  slot0 := committed_slot0 _ _ _
  nextPc := rfl
  memory _ := rfl
  mark := rfl
  params := rfl

/-! ## The templates -/

/-- The register-writing operations (41_r_type.md R110, 42_i_type.md R130, 49_muldiv.md R200). -/
theorem writeResult_spec (op : Word → Word → Word) (p : Word × Word) (rd : RegIdx) (s : State)
    (hc : s.cfg.wf = true) :
    ∃ t, writeResult op p rd s = .next t ∧ RegWritten s t rd (op p.1 p.2) (s.pc + 4#32) :=
  ⟨_, commit_noStore hc rfl, committed_regWritten s (writeEffect s rd _) rd _ rfl⟩

/-- LUI and AUIPC commit a register write (46_upper_imm.md R180). -/
theorem commit_writeEffect_spec (s : State) (rd : RegIdx) (v : Word)
    (hc : s.cfg.wf = true) :
    ∃ t, commit (writeEffect s rd v) s = .next t ∧ RegWritten s t rd v (s.pc + 4#32) :=
  ⟨_, commit_noStore hc rfl, committed_regWritten s (writeEffect s rd v) rd v rfl⟩

/-- FENCE and undefined encodings (48_fence_and_undefined.md R190, R192). -/
theorem commit_advance_spec (s : State)
    (hc : s.cfg.wf = true) :
    ∃ t, commit (advanceEffect s) s = .next t ∧ PcMoved s t (s.pc + 4#32) :=
  ⟨_, commit_noStore hc rfl, committed_pcMoved s (advanceEffect s) rfl⟩

/-- The branches (45_branches.md R170). -/
theorem branchOn_spec (cond : Word → Word → Bool) (rs1 rs2 : RegIdx) (imm : BitVec 13) (s : State)
    (hc : s.cfg.wf = true) :
    ∃ t, branchOn cond rs1 rs2 imm s = .next t ∧
      PcMoved s t (if cond (s.readReg rs1) (s.readReg rs2) then branchTarget s imm else s.pc + 4#32) :=
  ⟨_, commit_noStore hc rfl, committed_pcMoved s _ rfl⟩

/-- The jumps (47_jumps.md R185). -/
theorem jumpTo_spec (target : Word) (rd : RegIdx) (s : State)
    (hc : s.cfg.wf = true) :
    ∃ t, jumpTo target rd s = .next t ∧ RegWritten s t rd (s.pc + 4#32) target :=
  ⟨_, commit_noStore hc rfl, committed_regWritten s
    { wr := some (rd, returnAddress s), st := none, next := target } rd _ rfl⟩

/-- A load whose bytes lie in the window (43_loads.md R150). -/
theorem loadInto_spec (w : AccessWidth) (extend : Word → Word) (rd rs1 : RegIdx) (imm : BitVec 12) (s : State)
    (hc : s.cfg.wf = true) (h : s.Holds (effectiveAddress s rs1 imm) w.bytes) :
    ∃ t, loadInto w extend rd rs1 imm s = .next t ∧
      RegWritten s t rd (extend (s.mem.readLE (effectiveAddress s rs1 imm).toNat w.bytes)) (s.pc + 4#32) := by
  have hr : memRead s.cfg s.mem .load (effectiveAddress s rs1 imm) w = .ok _ :=
    memRead_ok.2 ⟨(s.holds_iff _ _).2 h, rfl⟩
  rw [loadInto, onLegalConfig_legal hc, hr]
  exact commit_writeEffect_spec s rd _ hc

/-- A load with a byte outside the window (20_memory.md R46). -/
theorem loadInto_fault (w : AccessWidth) (extend : Word → Word) (rd rs1 : RegIdx) (imm : BitVec 12) (s : State)
    (hc : s.cfg.wf = true) (h : ¬ s.Holds (effectiveAddress s rs1 imm) w.bytes) :
    loadInto w extend rd rs1 imm s = .fault (.memFault .load (effectiveAddress s rs1 imm) w) := by
  have hw : windowHolds s.cfg (effectiveAddress s rs1 imm).toNat w.bytes = false := by
    rw [← State.holds_iff] at h; simpa using h
  rw [loadInto, onLegalConfig_legal hc, memRead_error.2 ⟨hw, rfl⟩]

/-- A store whose bytes lie in the window (44_stores.md R160). -/
theorem storeFrom_spec (w : AccessWidth) (rs1 rs2 : RegIdx) (imm : BitVec 12) (s : State)
    (hc : s.cfg.wf = true) (h : s.Holds (effectiveAddress s rs1 imm) w.bytes) :
    ∃ t, storeFrom w rs1 rs2 imm s = .next t ∧
      BytesStored s t (effectiveAddress s rs1 imm) w.bytes (s.readReg rs2) (s.pc + 4#32) := by
  refine ⟨_, commit_of_ok hc (memWrite_ok.2 ⟨(s.holds_iff _ _).2 h, rfl⟩), ?_⟩
  exact
    { stored := fun k hk => Memory.read_writeLE_inside _ _ _ _ k hk
      otherBytes := fun a ha => Memory.read_writeLE_outside _ _ _ _ _ ha
      regs := fun r => readReg_committed_other _ _ _ r (by simp)
      slot0 := committed_slot0 _ _ _
      nextPc := rfl
      mark := rfl
      params := rfl }

/-- A store with a byte outside the window (20_memory.md R46). -/
theorem storeFrom_fault (w : AccessWidth) (rs1 rs2 : RegIdx) (imm : BitVec 12) (s : State)
    (hc : s.cfg.wf = true) (h : ¬ s.Holds (effectiveAddress s rs1 imm) w.bytes) :
    storeFrom w rs1 rs2 imm s = .fault (.memFault .store (effectiveAddress s rs1 imm) w) := by
  have hw : windowHolds s.cfg (effectiveAddress s rs1 imm).toNat w.bytes = false := by
    rw [← State.holds_iff] at h; simpa using h
  exact commit_of_error hc (memWrite_error.2 ⟨hw, rfl⟩)

/-! ## Every instruction is one of the templates -/

/-- The meaning is the commit of an effect that stores nothing and writes the register `dest`. -/
abbrev CommitsTo (o : Host.Outcome State Fault Refusal) (s : State) (dest : Option RegIdx) : Prop :=
  ∃ e : Effect, o = commit e s ∧ e.st = none ∧ e.wr.map Prod.fst = dest

theorem writeResult_commits (op : Word → Word → Word) (p : Word × Word) (rd : RegIdx) (s : State) :
    CommitsTo (writeResult op p rd s) s (some rd) := ⟨_, rfl, rfl, rfl⟩

theorem commit_writeEffect_commits (s : State) (rd : RegIdx) (v : Word) :
    CommitsTo (commit (writeEffect s rd v) s) s (some rd) := ⟨_, rfl, rfl, rfl⟩

theorem commit_advance_commits (s : State) : CommitsTo (commit (advanceEffect s) s) s none := ⟨_, rfl, rfl, rfl⟩

theorem branchOn_commits (cond : Word → Word → Bool) (rs1 rs2 : RegIdx) (imm : BitVec 13) (s : State) :
    CommitsTo (branchOn cond rs1 rs2 imm s) s none := ⟨_, rfl, rfl, rfl⟩

theorem jumpTo_commits (target : Word) (rd : RegIdx) (s : State) : CommitsTo (jumpTo target rd s) s (some rd) :=
  ⟨_, rfl, rfl, rfl⟩

/-- What an instruction that makes no memory access does is the commit of an effect that stores nothing, whose register
write goes to the destination R23 names. -/
theorem exec_noAccess (i : Instr) (s : State) (h : accessOf s i = none) : CommitsTo (exec i s) s (destOf i) := by
  cases i <;> first
    | exact writeResult_commits _ _ _ _
    | exact branchOn_commits _ _ _ _ _
    | exact commit_writeEffect_commits _ _ _
    | exact jumpTo_commits _ _ _
    | exact commit_advance_commits _
    | simp [accessOf] at h

/-- What an instruction that makes a load does: the read through the accessor, then a register write. -/
theorem exec_load (i : Instr) (s : State) {ea : Word} {w : AccessWidth} (h : accessOf s i = some (.load, ea, w)) :
    ∃ (extend : Word → Word) (rd : RegIdx), destOf i = some rd ∧ exec i s =
      onLegalConfig s
        (match memRead s.cfg s.mem .load ea w with
        | .error f => .fault f
        | .ok v => commit (writeEffect s rd (extend v)) s) := by
  cases i <;> simp only [accessOf, Option.some.injEq, Prod.mk.injEq, reduceCtorEq, true_and, false_and] at h <;>
    (obtain ⟨rfl, rfl⟩ := h; exact ⟨_, _, rfl, rfl⟩)

/-- What an instruction that makes a store does: the commit of an effect that stores and writes no register. -/
theorem exec_store (i : Instr) (s : State) {ea : Word} {w : AccessWidth} (h : accessOf s i = some (.store, ea, w)) :
    ∃ v, destOf i = none ∧ exec i s = commit { wr := none, st := some (ea, w, v), next := s.pc + 4#32 } s := by
  cases i <;> simp only [accessOf, Option.some.injEq, Prod.mk.injEq, reduceCtorEq, true_and, false_and] at h <;>
    (obtain ⟨rfl, rfl⟩ := h; exact ⟨_, rfl, rfl⟩)

/-- No instruction fetches. -/
theorem accessOf_ne_fetch (i : Instr) (s : State) (ea : Word) (w : AccessWidth) :
    accessOf s i ≠ some (.fetch, ea, w) := by
  cases i <;> simp [accessOf]

/-- Every next state of an instruction is the commit of an effect: its register write goes to the destination R23 names,
and its store, if any, went through the accessor at the access the instruction makes. -/
theorem exec_next {i : Instr} {s t : State} (h : exec i s = .next t) :
    ∃ e m, storeEffect e.st s = .ok m ∧ t = s.committed e m ∧ e.wr.map Prod.fst = destOf i ∧
      (∀ ea w v, e.st = some (ea, w, v) → accessOf s i = some (.store, ea, w)) := by
  rcases ha : accessOf s i with _ | ⟨kind, ea, w⟩
  · obtain ⟨e, he, hst, hwr⟩ := exec_noAccess i s ha
    obtain ⟨-, m, hm, rfl⟩ := commit_next (he ▸ h)
    exact ⟨e, m, hm, rfl, hwr, by simp [hst]⟩
  · cases kind with
    | fetch => exact (accessOf_ne_fetch i s ea w ha).elim
    | load =>
      obtain ⟨extend, rd, hd, he⟩ := exec_load i s ha
      obtain ⟨-, h⟩ := onLegalConfig_next (he ▸ h)
      rcases hr : memRead s.cfg s.mem .load ea w with f | v
      · simp [hr] at h
      · rw [hr] at h
        obtain ⟨-, m, hm, rfl⟩ := commit_next h
        exact ⟨_, m, hm, rfl, hd.symm, by simp⟩
    | store =>
      obtain ⟨v, hd, he⟩ := exec_store i s ha
      obtain ⟨-, m, hm, rfl⟩ := commit_next (he ▸ h)
      refine ⟨_, m, hm, rfl, hd.symm, ?_⟩
      intro ea' w' v' hs
      cases hs
      rfl

/-- On an illegal configuration every instruction is refused. -/
theorem exec_illegal (i : Instr) {s : State} (hc : s.cfg.wf = false) :
    exec i s = .refused .configNotWellFormed := by
  rcases ha : accessOf s i with _ | ⟨kind, ea, w⟩
  · obtain ⟨e, he, -⟩ := exec_noAccess i s ha
    rw [he, commit_illegal e hc]
  · cases kind with
    | fetch => exact (accessOf_ne_fetch i s ea w ha).elim
    | load =>
      obtain ⟨extend, rd, -, he⟩ := exec_load i s ha
      rw [he, onLegalConfig_illegal hc]
    | store =>
      obtain ⟨v, -, he⟩ := exec_store i s ha
      rw [he, commit_illegal _ hc]

/-- On a legal configuration an instruction goes on, or the one access it makes has a byte outside the window and it answers that access's fault. -/
theorem exec_outcome (i : Instr) (s : State) (hc : s.cfg.wf = true) :
    (∃ kind ea w, accessOf s i = some (kind, ea, w) ∧ ¬ s.Holds ea w.bytes ∧
      exec i s = .fault (.memFault kind ea w)) ∨
    ((∀ kind ea w, accessOf s i = some (kind, ea, w) → s.Holds ea w.bytes) ∧ ∃ t, exec i s = .next t) := by
  have outside : ∀ {ea : Word} {w : AccessWidth}, ¬ s.Holds ea w.bytes →
      windowHolds s.cfg ea.toNat w.bytes = false := fun h => by
    rw [← State.holds_iff] at h
    simpa using h
  rcases ha : accessOf s i with _ | ⟨kind, ea, w⟩
  · obtain ⟨e, he, hst, -⟩ := exec_noAccess i s ha
    exact .inr ⟨by simp, _, by rw [he]; exact commit_noStore hc hst⟩
  · by_cases hh : s.Holds ea w.bytes
    · refine .inr ⟨by rintro _ _ _ ⟨⟩; exact hh, ?_⟩
      cases kind with
      | fetch => exact (accessOf_ne_fetch i s ea w ha).elim
      | load =>
        obtain ⟨extend, rd, -, he⟩ := exec_load i s ha
        rw [he, onLegalConfig_legal hc, memRead_ok.2 ⟨(s.holds_iff _ _).2 hh, rfl⟩]
        exact ⟨_, commit_noStore hc rfl⟩
      | store =>
        obtain ⟨v, -, he⟩ := exec_store i s ha
        rw [he]
        exact ⟨_, commit_of_ok hc (memWrite_ok.2 ⟨(s.holds_iff _ _).2 hh, rfl⟩)⟩
    · refine .inl ⟨kind, ea, w, rfl, hh, ?_⟩
      cases kind with
      | fetch => exact (accessOf_ne_fetch i s ea w ha).elim
      | load =>
        obtain ⟨extend, rd, -, he⟩ := exec_load i s ha
        rw [he, onLegalConfig_legal hc, memRead_error.2 ⟨outside hh, rfl⟩]
      | store =>
        obtain ⟨v, -, he⟩ := exec_store i s ha
        rw [he]
        exact commit_of_error hc (memWrite_error.2 ⟨outside hh, rfl⟩)

end Sys2Proof.Machine
end

