-- ==== Sys2Proof/Laws/Driver.lean ====
section
/-! SUPPORT. What a step can do, said once: a running state whose fetch lies in the window dispatches the word decoded
there, and every next state comes so. -/

namespace Sys2Proof.Machine

theorem withHart_running {α : Type} {s : State} (h : s.Running) (go : Host.Outcome α Fault Refusal) :
    withHart s go = go := by rw [withHart, onLegalConfig_legal h.1, h.2]

theorem withHart_illegal {α : Type} {s : State} (h : s.cfg.wf = false) (go : Host.Outcome α Fault Refusal) :
    withHart s go = .refused .configNotWellFormed := onLegalConfig_illegal h _

theorem withHart_marked {α : Type} {s : State} (h : s.cfg.wf = true) {f : Fault} (hf : s.faultMark = some f)
    (go : Host.Outcome α Fault Refusal) : withHart s go = .fault f := by rw [withHart, onLegalConfig_legal h, hf]

/-- A transaction that answers next was made in a running state. -/
theorem withHart_next {α : Type} {s : State} {go : Host.Outcome α Fault Refusal} {a : α}
    (h : withHart s go = .next a) : s.Running ∧ go = .next a := by
  obtain ⟨hc, h⟩ := onLegalConfig_next h
  rcases hf : s.faultMark with _ | f
  · exact ⟨⟨hc, hf⟩, by simpa [hf] using h⟩
  · simp [hf] at h

/-- `init` on a legal configuration. -/
theorem initHart_legal {s : State} (h : s.cfg.wf = true) : initHart s = .next s.initialised := onLegalConfig_legal h _

theorem fetchWord_ok {s : State} {w : Word} :
    fetchWord s = .ok w ↔ s.Holds s.pc 4 ∧ w = s.mem.readLE s.pc.toNat 4 := by
  rw [fetchWord, memRead_ok, State.holds_iff]; rfl

theorem fetchWord_error {s : State} {f : Fault} :
    fetchWord s = .error f ↔ ¬ s.Holds s.pc 4 ∧ f = .memFault .fetch s.pc .word := by
  rw [fetchWord, memRead_error, ← State.holds_iff]; simp [AccessWidth.bytes]

/-- A step of a running state whose fetch gives the word `w` dispatches what `w` decodes to. -/
theorem step_of_fetch {s : State} {w : Word} (h : s.Running) (hf : fetchWord s = .ok w) :
    step s = dispatch (decode s.cfg.extM w) s := by simp [step, stepHart, withHart_running h, hf]

/-- A step that answers next is a dispatch. -/
theorem step_next {s t : State} (h : step s = .next t) :
    ∃ w, s.Running ∧ fetchWord s = .ok w ∧ dispatch (decode s.cfg.extM w) s = .next t := by
  obtain ⟨hr, h⟩ := withHart_next h
  rcases hf : fetchWord s with f | w
  · simp [hf] at h
  · exact ⟨w, hr, rfl, by simpa [hf] using h⟩

/-- Every next state of a step is the commit of an effect whose store, if any, went through the accessor. -/
theorem step_commits {s t : State} (h : step s = .next t) :
    ∃ e m, storeEffect e.st s = .ok m ∧ t = s.committed e m := by
  obtain ⟨w, -, -, hd⟩ := step_next h
  rcases hdec : decode s.cfg.extM w with i | why
  · rw [hdec] at hd
    obtain ⟨e, m, hm, ht, -, -⟩ := exec_next hd
    exact ⟨e, m, hm, ht⟩
  · rw [hdec] at hd
    have hc : commit (advanceEffect s) s = .next t := hd
    obtain ⟨-, m, hm, ht⟩ := commit_next hc
    exact ⟨_, m, hm, ht⟩

/-- A store keeps memory canonical and inside the window. -/
theorem storeEffect_keeps {st : Option (Word × AccessWidth × Word)} {s : State} {m : Memory}
    (h : storeEffect st s = .ok m) (hwf : s.mem.wf = true) (hin : cellsInWindow s.cfg s.mem = true) :
    m.wf = true ∧ cellsInWindow s.cfg m = true := by
  rcases st with _ | ⟨addr, w, v⟩
  · cases h; exact ⟨hwf, hin⟩
  · obtain ⟨hw, rfl⟩ := memWrite_ok.1 h
    exact ⟨Memory.wf_writeLE hwf _ _ _, cellsInWindow_writeLE hin _ _ _ hw⟩

theorem Memory.wf_writeList {m : Memory} (h : m.wf = true) (a : Nat) (bs : List Byte) :
    (m.writeList a bs).wf = true := by
  induction bs generalizing m a with
  | nil => exact h
  | cons v bs ih => exact ih (Memory.wf_write h a v) _

theorem placeWord_next {s : State} {w : Word} (hc : s.cfg.wf = true) (h : s.Holds s.pc 4) :
    placeWord s w = s.withMem (s.mem.writeLE s.pc.toNat w 4) := by
  have : memWrite s.cfg s.mem s.pc .word w = .ok (s.mem.writeLE s.pc.toNat w 4) :=
    memWrite_ok.2 ⟨(s.holds_iff _ _).2 h, rfl⟩
  simp [placeWord, hc, this]

/-- The next fetch reads the word that `withFetchWord` places. -/
theorem fetchWord_withFetchWord {s : State} (hc : s.cfg.wf = true) (h : s.Holds s.pc 4) (nbits w : Nat) :
    fetchWord (s.withFetchWord nbits w) = .ok (BitVec.ofNat 32 (w % 2 ^ nbits)) := by
  rw [State.withFetchWord, placeWord_next hc h]
  exact fetchWord_ok.2 ⟨h, (Memory.readLE_writeLE_four _ _ _).symm⟩

end Sys2Proof.Machine
end

