-- ==== Sys2Proof/Laws/PerInstr.lean ====
section
/-! SUPPORT. Statements made for every instruction, one lemma per constructor of Instr. The family EncodeDecode: the
decoder of a block reads back the instruction whose word the encoder wrote. -/

namespace Sys2Proof.Laws.EncodeDecode

/-- The well-formed instruction `i` is what its word decodes to. -/
def Statement (i : Instr) : Prop := ∀ extM : Bool, i.wf extM = true → decode extM (encode i) = .instr i

/-! ## One lemma per format -/

theorem base (extM : Bool) {f7 : BitVec 7} (h : f7 ≠ 0b0000001#7) (f3 : BitVec 3) (rd rs1 rs2 : RegIdx) :
    decode extM (encodeR f7 f3 rd rs1 rs2) = .instr (rTypeOf f3 (f7.getLsbD 5) rd rs1 rs2) := by
  rw [decode_r (opcodeField_encodeR f7 f3 rd rs1 rs2) (by simp [h])]
  simp

theorem mulDiv (f3 : BitVec 3) (rd rs1 rs2 : RegIdx) :
    decode true (encodeR 0b0000001#7 f3 rd rs1 rs2) = .instr (mulDivOf f3 rd rs1 rs2) := by
  rw [decode_mulDiv (opcodeField_encodeR _ f3 rd rs1 rs2) (funct7Field_encodeR _ f3 rd rs1 rs2)]
  simp

theorem immediate (extM : Bool) (f3 : BitVec 3) (rd rs1 : RegIdx) (imm : BitVec 12) :
    ∃ alt shamt, decode extM (encodeI 0x13#7 f3 rd rs1 imm) = .instr (iTypeOf f3 alt rd rs1 imm shamt) := by
  rw [decode_i (opcodeField_encodeI _ f3 rd rs1 imm)]
  simp only [funct3Field_encodeI, rdField_encodeI, rs1Field_encodeI, immIField_encodeI]
  exact ⟨_, _, rfl⟩

theorem shift (extM : Bool) (f7 : BitVec 7) (f3 : BitVec 3) (rd rs1 : RegIdx) (shamt : BitVec 5) :
    ∃ imm, decode extM (encodeShift f7 f3 rd rs1 shamt) = .instr (iTypeOf f3 (f7.getLsbD 5) rd rs1 imm shamt) := by
  rw [decode_i (opcodeField_encodeShift f7 f3 rd rs1 shamt)]
  simp only [funct3Field_encodeShift, rdField_encodeShift, rs1Field_encodeShift, shamtField_encodeShift,
    altBit_encodeShift]
  exact ⟨_, rfl⟩

theorem load (extM : Bool) (f3 : BitVec 3) (rd rs1 : RegIdx) (imm : BitVec 12) :
    decode extM (encodeI 0x03#7 f3 rd rs1 imm) = loadOf f3 rd rs1 imm := by
  rw [decode_load (opcodeField_encodeI _ f3 rd rs1 imm)]
  simp

theorem store (extM : Bool) (f3 : BitVec 3) (rs1 rs2 : RegIdx) (imm : BitVec 12) :
    decode extM (encodeS f3 rs1 rs2 imm) = storeOf f3 rs1 rs2 imm := by
  rw [decode_store (opcodeField_encodeS f3 rs1 rs2 imm)]
  simp

theorem branch (extM : Bool) (f3 : BitVec 3) (rs1 rs2 : RegIdx) {imm : BitVec 13} (h : evenOffset imm = true) :
    decode extM (encodeB f3 rs1 rs2 imm) = branchOf f3 rs1 rs2 imm := by
  rw [decode_branch (opcodeField_encodeB f3 rs1 rs2 imm), immBField_encodeB f3 rs1 rs2 imm (by simpa [evenOffset] using h)]
  simp

/-! ## One lemma per constructor -/

theorem add (rd rs1 rs2 : RegIdx) : Statement (.add rd rs1 rs2) := fun extM _ => base extM (by decide) _ rd rs1 rs2

theorem sub (rd rs1 rs2 : RegIdx) : Statement (.sub rd rs1 rs2) := fun extM _ => base extM (by decide) _ rd rs1 rs2

theorem sll (rd rs1 rs2 : RegIdx) : Statement (.sll rd rs1 rs2) := fun extM _ => base extM (by decide) _ rd rs1 rs2

theorem slt (rd rs1 rs2 : RegIdx) : Statement (.slt rd rs1 rs2) := fun extM _ => base extM (by decide) _ rd rs1 rs2

theorem sltu (rd rs1 rs2 : RegIdx) : Statement (.sltu rd rs1 rs2) := fun extM _ => base extM (by decide) _ rd rs1 rs2

theorem xor (rd rs1 rs2 : RegIdx) : Statement (.xor rd rs1 rs2) := fun extM _ => base extM (by decide) _ rd rs1 rs2

theorem srl (rd rs1 rs2 : RegIdx) : Statement (.srl rd rs1 rs2) := fun extM _ => base extM (by decide) _ rd rs1 rs2

theorem sra (rd rs1 rs2 : RegIdx) : Statement (.sra rd rs1 rs2) := fun extM _ => base extM (by decide) _ rd rs1 rs2

theorem or (rd rs1 rs2 : RegIdx) : Statement (.or rd rs1 rs2) := fun extM _ => base extM (by decide) _ rd rs1 rs2

theorem and (rd rs1 rs2 : RegIdx) : Statement (.and rd rs1 rs2) := fun extM _ => base extM (by decide) _ rd rs1 rs2

theorem addi (rd rs1 : RegIdx) (imm : BitVec 12) : Statement (.addi rd rs1 imm) := fun extM _ => by
  obtain ⟨_, _, h⟩ := immediate extM 0b000#3 rd rs1 imm; exact h

theorem slti (rd rs1 : RegIdx) (imm : BitVec 12) : Statement (.slti rd rs1 imm) := fun extM _ => by
  obtain ⟨_, _, h⟩ := immediate extM 0b010#3 rd rs1 imm; exact h

theorem sltiu (rd rs1 : RegIdx) (imm : BitVec 12) : Statement (.sltiu rd rs1 imm) := fun extM _ => by
  obtain ⟨_, _, h⟩ := immediate extM 0b011#3 rd rs1 imm; exact h

theorem xori (rd rs1 : RegIdx) (imm : BitVec 12) : Statement (.xori rd rs1 imm) := fun extM _ => by
  obtain ⟨_, _, h⟩ := immediate extM 0b100#3 rd rs1 imm; exact h

theorem ori (rd rs1 : RegIdx) (imm : BitVec 12) : Statement (.ori rd rs1 imm) := fun extM _ => by
  obtain ⟨_, _, h⟩ := immediate extM 0b110#3 rd rs1 imm; exact h

theorem andi (rd rs1 : RegIdx) (imm : BitVec 12) : Statement (.andi rd rs1 imm) := fun extM _ => by
  obtain ⟨_, _, h⟩ := immediate extM 0b111#3 rd rs1 imm; exact h

theorem slli (rd rs1 : RegIdx) (shamt : BitVec 5) : Statement (.slli rd rs1 shamt) := fun extM _ => by
  obtain ⟨_, h⟩ := shift extM 0b0000000#7 0b001#3 rd rs1 shamt; exact h

theorem srli (rd rs1 : RegIdx) (shamt : BitVec 5) : Statement (.srli rd rs1 shamt) := fun extM _ => by
  obtain ⟨_, h⟩ := shift extM 0b0000000#7 0b101#3 rd rs1 shamt; exact h

theorem srai (rd rs1 : RegIdx) (shamt : BitVec 5) : Statement (.srai rd rs1 shamt) := fun extM _ => by
  obtain ⟨_, h⟩ := shift extM 0b0100000#7 0b101#3 rd rs1 shamt; exact h

theorem lb (rd rs1 : RegIdx) (imm : BitVec 12) : Statement (.lb rd rs1 imm) := fun extM _ => load extM _ rd rs1 imm

theorem lh (rd rs1 : RegIdx) (imm : BitVec 12) : Statement (.lh rd rs1 imm) := fun extM _ => load extM _ rd rs1 imm

theorem lw (rd rs1 : RegIdx) (imm : BitVec 12) : Statement (.lw rd rs1 imm) := fun extM _ => load extM _ rd rs1 imm

theorem lbu (rd rs1 : RegIdx) (imm : BitVec 12) : Statement (.lbu rd rs1 imm) := fun extM _ => load extM _ rd rs1 imm

theorem lhu (rd rs1 : RegIdx) (imm : BitVec 12) : Statement (.lhu rd rs1 imm) := fun extM _ => load extM _ rd rs1 imm

theorem sb (rs1 rs2 : RegIdx) (imm : BitVec 12) : Statement (.sb rs1 rs2 imm) := fun extM _ => store extM _ rs1 rs2 imm

theorem sh (rs1 rs2 : RegIdx) (imm : BitVec 12) : Statement (.sh rs1 rs2 imm) := fun extM _ => store extM _ rs1 rs2 imm

theorem sw (rs1 rs2 : RegIdx) (imm : BitVec 12) : Statement (.sw rs1 rs2 imm) := fun extM _ => store extM _ rs1 rs2 imm

theorem beq (rs1 rs2 : RegIdx) (imm : BitVec 13) : Statement (.beq rs1 rs2 imm) := fun extM h => branch extM _ rs1 rs2 h

theorem bne (rs1 rs2 : RegIdx) (imm : BitVec 13) : Statement (.bne rs1 rs2 imm) := fun extM h => branch extM _ rs1 rs2 h

theorem blt (rs1 rs2 : RegIdx) (imm : BitVec 13) : Statement (.blt rs1 rs2 imm) := fun extM h => branch extM _ rs1 rs2 h

theorem bge (rs1 rs2 : RegIdx) (imm : BitVec 13) : Statement (.bge rs1 rs2 imm) := fun extM h => branch extM _ rs1 rs2 h

theorem bltu (rs1 rs2 : RegIdx) (imm : BitVec 13) : Statement (.bltu rs1 rs2 imm) := fun extM h => branch extM _ rs1 rs2 h

theorem bgeu (rs1 rs2 : RegIdx) (imm : BitVec 13) : Statement (.bgeu rs1 rs2 imm) := fun extM h => branch extM _ rs1 rs2 h

theorem lui (rd : RegIdx) (imm : BitVec 20) : Statement (.lui rd imm) := fun _ _ => by
  show decode _ (encodeU _ rd imm) = _
  rw [decode_lui (opcodeField_encodeU _ rd imm)]; simp

theorem auipc (rd : RegIdx) (imm : BitVec 20) : Statement (.auipc rd imm) := fun _ _ => by
  show decode _ (encodeU _ rd imm) = _
  rw [decode_auipc (opcodeField_encodeU _ rd imm)]; simp

theorem jal (rd : RegIdx) (imm : BitVec 21) : Statement (.jal rd imm) := fun _ h => by
  show decode _ (encodeJ rd imm) = _
  rw [decode_jal (opcodeField_encodeJ rd imm), immJField_encodeJ rd imm (by simpa [Instr.wf, evenOffset] using h)]; simp

theorem jalr (rd rs1 : RegIdx) (imm : BitVec 12) : Statement (.jalr rd rs1 imm) := fun _ _ => by
  show decode _ (encodeI _ _ rd rs1 imm) = _
  rw [decode_jalr (opcodeField_encodeI _ _ rd rs1 imm)]; simp

theorem fence : Statement .fence := fun _ _ => decode_fence rfl

theorem mul (rd rs1 rs2 : RegIdx) : Statement (.mul rd rs1 rs2) := by
  rintro _ rfl; exact mulDiv _ rd rs1 rs2

theorem mulh (rd rs1 rs2 : RegIdx) : Statement (.mulh rd rs1 rs2) := by
  rintro _ rfl; exact mulDiv _ rd rs1 rs2

theorem mulhsu (rd rs1 rs2 : RegIdx) : Statement (.mulhsu rd rs1 rs2) := by
  rintro _ rfl; exact mulDiv _ rd rs1 rs2

theorem mulhu (rd rs1 rs2 : RegIdx) : Statement (.mulhu rd rs1 rs2) := by
  rintro _ rfl; exact mulDiv _ rd rs1 rs2

theorem div (rd rs1 rs2 : RegIdx) : Statement (.div rd rs1 rs2) := by
  rintro _ rfl; exact mulDiv _ rd rs1 rs2

theorem divu (rd rs1 rs2 : RegIdx) : Statement (.divu rd rs1 rs2) := by
  rintro _ rfl; exact mulDiv _ rd rs1 rs2

theorem rem (rd rs1 rs2 : RegIdx) : Statement (.rem rd rs1 rs2) := by
  rintro _ rfl; exact mulDiv _ rd rs1 rs2

theorem remu (rd rs1 rs2 : RegIdx) : Statement (.remu rd rs1 rs2) := by
  rintro _ rfl; exact mulDiv _ rd rs1 rs2

end Sys2Proof.Laws.EncodeDecode
end

