-- ==== Sys2Proof/Tests/Slice0.lean ====
section
/-! SUPPORT. Tests. Every expected value comes from the spec: the row ids R1, I3, L12 and so on are those of
95_test_vectors.md. The witnesses at the end show, for each statement of Obligations.lean that has hypotheses, a concrete
state and operands that meet them, clause by clause, at the edges of their ranges. -/

namespace Sys2Proof.Tests

open Sys2Proof Sys2Proof.Machine

/-! ## Well-formedness: one ill-formed term for each check -/

/-- R71: an odd branch offset. -/
theorem test_wf_refuses_odd_branch_offset : Instr.wf true (.beq 1 2 5#13) = false := by decide

/-- R72: an odd JAL offset. -/
theorem test_wf_refuses_odd_jal_offset : Instr.wf true (.jal 1 0x1FFFFF#21) = false := by decide

/-- R200: a multiply in a block without the unit. -/
theorem test_wf_refuses_mul_without_unit : Instr.wf false (.mul 3 1 2) = false ∧ Instr.wf true (.mul 3 1 2) = true := by
  decide

/-- R9: no memory at all, and a window that reaches the end of the address space. -/
theorem test_config_wf :
    Config.wf ⟨0x80000000#32, 0, true⟩ = false ∧ Config.wf ⟨0xFFFFF000#32, 0x1000, true⟩ = false ∧
    Config.wf ⟨0xFFFFF000#32, 0xFFF, true⟩ = true ∧ Config.wf ⟨0x00000000#32, 1, false⟩ = true := by decide

/-! ## Decoding: one word for every constructor, written out from the formats R75 to R80 and the rows of R82 -/

theorem test_decode_r_type :
    decode true (0b0000000#7 ++ 0b00010#5 ++ 0b00001#5 ++ 0b000#3 ++ 0b00011#5 ++ 0b0110011#7) =
      .instr (.add 3 1 2) ∧
    decode true (0b0100000#7 ++ 0b00010#5 ++ 0b00001#5 ++ 0b000#3 ++ 0b00011#5 ++ 0b0110011#7) =
      .instr (.sub 3 1 2) ∧
    decode true (0b0000000#7 ++ 0b00010#5 ++ 0b00001#5 ++ 0b001#3 ++ 0b00011#5 ++ 0b0110011#7) =
      .instr (.sll 3 1 2) ∧
    decode true (0b0000000#7 ++ 0b00010#5 ++ 0b00001#5 ++ 0b010#3 ++ 0b00011#5 ++ 0b0110011#7) =
      .instr (.slt 3 1 2) ∧
    decode true (0b0000000#7 ++ 0b00010#5 ++ 0b00001#5 ++ 0b011#3 ++ 0b00011#5 ++ 0b0110011#7) =
      .instr (.sltu 3 1 2) ∧
    decode true (0b0000000#7 ++ 0b00010#5 ++ 0b00001#5 ++ 0b100#3 ++ 0b00011#5 ++ 0b0110011#7) =
      .instr (.xor 3 1 2) ∧
    decode true (0b0000000#7 ++ 0b00010#5 ++ 0b00001#5 ++ 0b101#3 ++ 0b00011#5 ++ 0b0110011#7) =
      .instr (.srl 3 1 2) ∧
    decode true (0b0100000#7 ++ 0b00010#5 ++ 0b00001#5 ++ 0b101#3 ++ 0b00011#5 ++ 0b0110011#7) =
      .instr (.sra 3 1 2) ∧
    decode true (0b0000000#7 ++ 0b00010#5 ++ 0b00001#5 ++ 0b110#3 ++ 0b00011#5 ++ 0b0110011#7) =
      .instr (.or 3 1 2) ∧
    decode true (0b0000000#7 ++ 0b00010#5 ++ 0b00001#5 ++ 0b111#3 ++ 0b00011#5 ++ 0b0110011#7) =
      .instr (.and 3 1 2) := by
  decide

theorem test_decode_i_type :
    decode true (0b100000000011#12 ++ 0b00001#5 ++ 0b000#3 ++ 0b00011#5 ++ 0b0010011#7) =
      .instr (.addi 3 1 0b100000000011#12) ∧
    decode true (0b100000000011#12 ++ 0b00001#5 ++ 0b010#3 ++ 0b00011#5 ++ 0b0010011#7) =
      .instr (.slti 3 1 0b100000000011#12) ∧
    decode true (0b100000000011#12 ++ 0b00001#5 ++ 0b011#3 ++ 0b00011#5 ++ 0b0010011#7) =
      .instr (.sltiu 3 1 0b100000000011#12) ∧
    decode true (0b100000000011#12 ++ 0b00001#5 ++ 0b100#3 ++ 0b00011#5 ++ 0b0010011#7) =
      .instr (.xori 3 1 0b100000000011#12) ∧
    decode true (0b100000000011#12 ++ 0b00001#5 ++ 0b110#3 ++ 0b00011#5 ++ 0b0010011#7) =
      .instr (.ori 3 1 0b100000000011#12) ∧
    decode true (0b100000000011#12 ++ 0b00001#5 ++ 0b111#3 ++ 0b00011#5 ++ 0b0010011#7) =
      .instr (.andi 3 1 0b100000000011#12) ∧
    decode true (0b0000000#7 ++ 0b10001#5 ++ 0b00001#5 ++ 0b001#3 ++ 0b00011#5 ++ 0b0010011#7) =
      .instr (.slli 3 1 17#5) ∧
    decode true (0b0000000#7 ++ 0b10001#5 ++ 0b00001#5 ++ 0b101#3 ++ 0b00011#5 ++ 0b0010011#7) =
      .instr (.srli 3 1 17#5) ∧
    decode true (0b0100000#7 ++ 0b10001#5 ++ 0b00001#5 ++ 0b101#3 ++ 0b00011#5 ++ 0b0010011#7) =
      .instr (.srai 3 1 17#5) := by
  decide

theorem test_decode_loads :
    decode true (0b100000000011#12 ++ 0b00001#5 ++ 0b000#3 ++ 0b00011#5 ++ 0b0000011#7) =
      .instr (.lb 3 1 0b100000000011#12) ∧
    decode true (0b100000000011#12 ++ 0b00001#5 ++ 0b001#3 ++ 0b00011#5 ++ 0b0000011#7) =
      .instr (.lh 3 1 0b100000000011#12) ∧
    decode true (0b100000000011#12 ++ 0b00001#5 ++ 0b010#3 ++ 0b00011#5 ++ 0b0000011#7) =
      .instr (.lw 3 1 0b100000000011#12) ∧
    decode true (0b100000000011#12 ++ 0b00001#5 ++ 0b100#3 ++ 0b00011#5 ++ 0b0000011#7) =
      .instr (.lbu 3 1 0b100000000011#12) ∧
    decode true (0b100000000011#12 ++ 0b00001#5 ++ 0b101#3 ++ 0b00011#5 ++ 0b0000011#7) =
      .instr (.lhu 3 1 0b100000000011#12) := by
  decide

theorem test_decode_stores :
    decode true (0b1000000#7 ++ 0b00010#5 ++ 0b00001#5 ++ 0b000#3 ++ 0b00011#5 ++ 0b0100011#7) =
      .instr (.sb 1 2 0b100000000011#12) ∧
    decode true (0b1000000#7 ++ 0b00010#5 ++ 0b00001#5 ++ 0b001#3 ++ 0b00011#5 ++ 0b0100011#7) =
      .instr (.sh 1 2 0b100000000011#12) ∧
    decode true (0b1000000#7 ++ 0b00010#5 ++ 0b00001#5 ++ 0b010#3 ++ 0b00011#5 ++ 0b0100011#7) =
      .instr (.sw 1 2 0b100000000011#12) := by
  decide

theorem test_decode_branches :
    decode true (0b1#1 ++ 0b000001#6 ++ 0b00010#5 ++ 0b00001#5 ++ 0b000#3 ++ 0b0010#4 ++ 0b0#1 ++ 0b1100011#7) =
      .instr (.beq 1 2 0b1000000100100#13) ∧
    decode true (0b1#1 ++ 0b000001#6 ++ 0b00010#5 ++ 0b00001#5 ++ 0b001#3 ++ 0b0010#4 ++ 0b0#1 ++ 0b1100011#7) =
      .instr (.bne 1 2 0b1000000100100#13) ∧
    decode true (0b1#1 ++ 0b000001#6 ++ 0b00010#5 ++ 0b00001#5 ++ 0b100#3 ++ 0b0010#4 ++ 0b0#1 ++ 0b1100011#7) =
      .instr (.blt 1 2 0b1000000100100#13) ∧
    decode true (0b1#1 ++ 0b000001#6 ++ 0b00010#5 ++ 0b00001#5 ++ 0b101#3 ++ 0b0010#4 ++ 0b0#1 ++ 0b1100011#7) =
      .instr (.bge 1 2 0b1000000100100#13) ∧
    decode true (0b1#1 ++ 0b000001#6 ++ 0b00010#5 ++ 0b00001#5 ++ 0b110#3 ++ 0b0010#4 ++ 0b0#1 ++ 0b1100011#7) =
      .instr (.bltu 1 2 0b1000000100100#13) ∧
    decode true (0b1#1 ++ 0b000001#6 ++ 0b00010#5 ++ 0b00001#5 ++ 0b111#3 ++ 0b0010#4 ++ 0b0#1 ++ 0b1100011#7) =
      .instr (.bgeu 1 2 0b1000000100100#13) := by
  decide

theorem test_decode_upper_immediates_jumps_and_fence :
    decode true (0b10000000000000000011#20 ++ 0b00011#5 ++ 0b0110111#7) =
      .instr (.lui 3 0b10000000000000000011#20) ∧
    decode true (0b10000000000000000011#20 ++ 0b00011#5 ++ 0b0010111#7) =
      .instr (.auipc 3 0b10000000000000000011#20) ∧
    decode true (0b1#1 ++ 0b0000000010#10 ++ 0b0#1 ++ 0b00000010#8 ++ 0b00011#5 ++ 0b1101111#7) =
      .instr (.jal 3 0b100000010000000000100#21) ∧
    decode true (0b100000000011#12 ++ 0b00001#5 ++ 0b000#3 ++ 0b00011#5 ++ 0b1100111#7) =
      .instr (.jalr 3 1 0b100000000011#12) ∧
    decode true (0b0000#4 ++ 0b1111#4 ++ 0b1111#4 ++ 0b00000#5 ++ 0b000#3 ++ 0b00000#5 ++ 0b0001111#7) =
      .instr (.fence) := by
  decide

theorem test_decode_muldiv :
    decode true (0b0000001#7 ++ 0b00010#5 ++ 0b00001#5 ++ 0b000#3 ++ 0b00011#5 ++ 0b0110011#7) =
      .instr (.mul 3 1 2) ∧
    decode true (0b0000001#7 ++ 0b00010#5 ++ 0b00001#5 ++ 0b001#3 ++ 0b00011#5 ++ 0b0110011#7) =
      .instr (.mulh 3 1 2) ∧
    decode true (0b0000001#7 ++ 0b00010#5 ++ 0b00001#5 ++ 0b010#3 ++ 0b00011#5 ++ 0b0110011#7) =
      .instr (.mulhsu 3 1 2) ∧
    decode true (0b0000001#7 ++ 0b00010#5 ++ 0b00001#5 ++ 0b011#3 ++ 0b00011#5 ++ 0b0110011#7) =
      .instr (.mulhu 3 1 2) ∧
    decode true (0b0000001#7 ++ 0b00010#5 ++ 0b00001#5 ++ 0b100#3 ++ 0b00011#5 ++ 0b0110011#7) =
      .instr (.div 3 1 2) ∧
    decode true (0b0000001#7 ++ 0b00010#5 ++ 0b00001#5 ++ 0b101#3 ++ 0b00011#5 ++ 0b0110011#7) =
      .instr (.divu 3 1 2) ∧
    decode true (0b0000001#7 ++ 0b00010#5 ++ 0b00001#5 ++ 0b110#3 ++ 0b00011#5 ++ 0b0110011#7) =
      .instr (.rem 3 1 2) ∧
    decode true (0b0000001#7 ++ 0b00010#5 ++ 0b00001#5 ++ 0b111#3 ++ 0b00011#5 ++ 0b0110011#7) =
      .instr (.remu 3 1 2) := by
  decide

/-- The undefined encodings of R85, one word for each clause, and the system and 16-bit words of 3.8 (F3 to F9). -/
theorem test_decode_undefined :
    decode true 0x0000B183#32 = .undefined .loadFunct3 ∧ decode true 0x0020B023#32 = .undefined .storeFunct3 ∧
    decode true 0x00002463#32 = .undefined .branchFunct3 ∧
    ([0x00000073#32, 0x00100073#32, 0x300110F3#32, 0x00000000#32, 0xFFFFFFFF#32, 0x0020A1AF#32, 0x00000001#32].all
      fun w => decide (decode true w = .undefined .opcode)) = true := by decide

/-- M26, M27, M28: the multiply/divide words of a block without the unit are base R rows (R83, R200). -/
theorem test_decode_without_unit :
    decode false 0x022081B3#32 = .instr (.add 3 1 2) ∧ decode false 0x0220C1B3#32 = .instr (.xor 3 1 2) ∧
    decode false 0x0220F1B3#32 = .instr (.and 3 1 2) := by decide

/-- R22, I17, I20, J11: bits the hardware ignores change nothing. -/
theorem test_decode_ignored_bits :
    decode true 0xBE2081B3#32 = .instr (.add 3 1 2) ∧ decode true 0x02409193#32 = .instr (.slli 3 1 4#5) ∧
    decode true 0x0240D193#32 = .instr (.srli 3 1 4#5) ∧ decode true 0x000290E7#32 = .instr (.jalr 1 5 0#12) := by decide

/-- The words of 95_test_vectors.md section 2. -/
theorem test_fields_of_instruction_words :
  fieldsOf 0x00500093#32 = ⟨0x13#7, 1, 0b000#3, 0, 5, 0x00#7, 5#5, 0x00000005#32, 0x00000001#32, 0x00000800#32, 0x00000804#32, 0x00500000#32⟩ ∧
  fieldsOf 0x123450B7#32 = ⟨0x37#7, 1, 0b101#3, 8, 3, 0x09#7, 3#5, 0x00000123#32, 0x00000121#32, 0x00000920#32, 0x00045922#32, 0x12345000#32⟩ ∧
  fieldsOf 0x008000EF#32 = ⟨0x6F#7, 1, 0b000#3, 0, 8, 0x00#7, 8#5, 0x00000008#32, 0x00000001#32, 0x00000800#32, 0x00000008#32, 0x00800000#32⟩ ∧
  fieldsOf 0xFE20AE23#32 = ⟨0x23#7, 28, 0b010#3, 1, 2, 0x7F#7, 2#5, 0xFFFFFFE2#32, 0xFFFFFFFC#32, 0xFFFFF7FC#32, 0xFFF0A7E2#32, 0xFE20A000#32⟩ ∧
  fieldsOf 0xFE209CE3#32 = ⟨0x63#7, 25, 0b001#3, 1, 2, 0x7F#7, 2#5, 0xFFFFFFE2#32, 0xFFFFFFF9#32, 0xFFFFFFF8#32, 0xFFF097E2#32, 0xFE209000#32⟩ ∧
  fieldsOf 0x004280E7#32 = ⟨0x67#7, 1, 0b000#3, 5, 4, 0x00#7, 4#5, 0x00000004#32, 0x00000001#32, 0x00000800#32, 0x00028004#32, 0x00428000#32⟩ := by
  decide

theorem test_fields_of_boundary_words :
  fieldsOf 0xFFFFFFFF#32 = ⟨0x7F#7, 31, 0b111#3, 31, 31, 0x7F#7, 31#5, 0xFFFFFFFF#32, 0xFFFFFFFF#32, 0xFFFFFFFE#32, 0xFFFFFFFE#32, 0xFFFFF000#32⟩ ∧
  fieldsOf 0x80000000#32 = ⟨0x00#7, 0, 0b000#3, 0, 0, 0x40#7, 0#5, 0xFFFFF800#32, 0xFFFFF800#32, 0xFFFFF000#32, 0xFFF00000#32, 0x80000000#32⟩ ∧
  fieldsOf 0x7FFFFFFF#32 = ⟨0x7F#7, 31, 0b111#3, 31, 31, 0x3F#7, 31#5, 0x000007FF#32, 0x000007FF#32, 0x00000FFE#32, 0x000FFFFE#32, 0x7FFFF000#32⟩ ∧
  fieldsOf 0x00000000#32 = ⟨0x00#7, 0, 0b000#3, 0, 0, 0x00#7, 0#5, 0x00000000#32, 0x00000000#32, 0x00000000#32, 0x00000000#32, 0x00000000#32⟩ ∧
  fieldsOf 0xAAAAAAAA#32 = ⟨0x2A#7, 21, 0b010#3, 21, 10, 0x55#7, 10#5, 0xFFFFFAAA#32, 0xFFFFFAB5#32, 0xFFFFFAB4#32, 0xFFFAA2AA#32, 0xAAAAA000#32⟩ ∧
  fieldsOf 0x55555555#32 = ⟨0x55#7, 10, 0b101#3, 10, 21, 0x2A#7, 21#5, 0x00000555#32, 0x0000054A#32, 0x0000054A#32, 0x00055D54#32, 0x55555000#32⟩ := by
  decide

/-! ## Steps: what a test machine is made of -/

/-- `P` of 95_test_vectors.md. -/
def P : Word := 0x80000000#32

/-- The machine after reset with a pc, some registers and the word at the pc. -/
def machine (pc : Word) (regs : List (RegIdx × Word)) (w : Nat) : State :=
  ({ State.reset with pc := pc, regs := regs.foldl (fun x p => writeBack (some p) x) State.reset.regs }).withFetchWord 32 w

/-- The same with the bytes 80 7F FF 01 at P + 0x100 (95_test_vectors.md 3.3). -/
def loadedWith (pc : Word) (regs : List (RegIdx × Word)) (w : Nat) : State :=
  let s := machine pc regs w
  s.withMem (s.mem.writeList 0x80000100 [0x80#8, 0x7F#8, 0xFF#8, 0x01#8])

/-- The next state. -/
def nextOf (o : Host.Outcome State Fault Refusal) : Option State :=
  match o with
  | .next t => some t
  | _ => none

/-- The fault a step answers. -/
def stops (s : State) : Option Fault :=
  match step s with
  | .fault f => some f
  | _ => none

/-- A register and the pc after a step. -/
def result (s : State) (r : RegIdx) : Option (Word × Word) := (nextOf (step s)).map fun t => (t.readReg r, t.pc)

/-- Some bytes after a step. -/
def stored (s : State) (a n : Nat) : Option (List Byte) :=
  (nextOf (step s)).map fun t => (List.range n).map fun k => t.mem.read (a + k)

/-! ## R-type (95_test_vectors.md 3.1) -/

/-- R1. -/
theorem test_add_wraps :
    result (machine P [(1, 0x7FFFFFFF#32), (2, 0x00000001#32)] 0x002081B3) 3 = some (0x80000000#32, 0x80000004#32) := by decide

/-- R24. -/
theorem test_add_to_x0_is_lost :
    result (machine P [(1, 0x00000006#32), (2, 0x00000007#32)] 0x00208033) 0 = some (0x00000000#32, 0x80000004#32) := by decide

/-- R3. -/
theorem test_sub_borrows :
    result (machine P [(1, 0x00000000#32), (2, 0x00000001#32)] 0x402081B3) 3 = some (0xFFFFFFFF#32, 0x80000004#32) := by decide

/-- R4. -/
theorem test_sub_wraps :
    result (machine P [(1, 0x80000000#32), (2, 0x00000001#32)] 0x402081B3) 3 = some (0x7FFFFFFF#32, 0x80000004#32) := by decide

/-- R5. -/
theorem test_sll_by_31 :
    result (machine P [(1, 0x00000001#32), (2, 0x0000001F#32)] 0x002091B3) 3 = some (0x80000000#32, 0x80000004#32) := by decide

/-- R7. -/
theorem test_sll_uses_low_five_bits :
    result (machine P [(1, 0x40000001#32), (2, 0xFFFFFFE1#32)] 0x002091B3) 3 = some (0x80000002#32, 0x80000004#32) := by decide

/-- R8. -/
theorem test_slt_is_signed :
    result (machine P [(1, 0x80000000#32), (2, 0x00000001#32)] 0x0020A1B3) 3 = some (0x00000001#32, 0x80000004#32) := by decide

/-- R9. -/
theorem test_slt_false :
    result (machine P [(1, 0x00000001#32), (2, 0x80000000#32)] 0x0020A1B3) 3 = some (0x00000000#32, 0x80000004#32) := by decide

/-- R11. -/
theorem test_sltu_is_unsigned :
    result (machine P [(1, 0x80000000#32), (2, 0x00000001#32)] 0x0020B1B3) 3 = some (0x00000000#32, 0x80000004#32) := by decide

/-- R12. -/
theorem test_sltu_true :
    result (machine P [(1, 0x00000000#32), (2, 0x00000001#32)] 0x0020B1B3) 3 = some (0x00000001#32, 0x80000004#32) := by decide

/-- R13. -/
theorem test_xor :
    result (machine P [(1, 0xF0F0F0F0#32), (2, 0xFF00FF00#32)] 0x0020C1B3) 3 = some (0x0FF00FF0#32, 0x80000004#32) := by decide

/-- R21. -/
theorem test_xor_ignores_funct7 :
    result (machine P [(1, 0xF0F0F0F0#32), (2, 0xFF00FF00#32)] 0x4020C1B3) 3 = some (0x0FF00FF0#32, 0x80000004#32) := by decide

/-- R14. -/
theorem test_srl_by_31 :
    result (machine P [(1, 0x80000000#32), (2, 0x0000001F#32)] 0x0020D1B3) 3 = some (0x00000001#32, 0x80000004#32) := by decide

/-- R15. -/
theorem test_srl_by_32_is_by_0 :
    result (machine P [(1, 0x80000000#32), (2, 0x00000020#32)] 0x0020D1B3) 3 = some (0x80000000#32, 0x80000004#32) := by decide

/-- R16. -/
theorem test_sra_fills_with_sign :
    result (machine P [(1, 0x80000000#32), (2, 0x0000001F#32)] 0x4020D1B3) 3 = some (0xFFFFFFFF#32, 0x80000004#32) := by decide

/-- R18. -/
theorem test_sra_positive :
    result (machine P [(1, 0x7FFFFFF0#32), (2, 0x00000004#32)] 0x4020D1B3) 3 = some (0x07FFFFFF#32, 0x80000004#32) := by decide

/-- R19. -/
theorem test_or :
    result (machine P [(1, 0xF0F0F0F0#32), (2, 0xFF00FF00#32)] 0x0020E1B3) 3 = some (0xFFF0FFF0#32, 0x80000004#32) := by decide

/-- R20. -/
theorem test_and :
    result (machine P [(1, 0xF0F0F0F0#32), (2, 0xFF00FF00#32)] 0x0020F1B3) 3 = some (0xF000F000#32, 0x80000004#32) := by decide

/-! ## I-type (3.2) -/

/-- I3. -/
theorem test_addi_most_negative_immediate :
    result (machine P [(1, 0x00000000#32)] 0x80008193) 3 = some (0xFFFFF800#32, 0x80000004#32) := by decide

/-- I4. -/
theorem test_addi_largest_immediate :
    result (machine P [(1, 0x00000001#32)] 0x7FF08193) 3 = some (0x00000800#32, 0x80000004#32) := by decide

/-- I7. -/
theorem test_slti_is_signed :
    result (machine P [(1, 0xFFFFFFFE#32)] 0xFFF0A193) 3 = some (0x00000001#32, 0x80000004#32) := by decide

/-- I8. -/
theorem test_slti_false :
    result (machine P [(1, 0x00000000#32)] 0xFFF0A193) 3 = some (0x00000000#32, 0x80000004#32) := by decide

/-- I9. -/
theorem test_sltiu_extends_then_compares_unsigned :
    result (machine P [(1, 0x00000000#32)] 0xFFF0B193) 3 = some (0x00000001#32, 0x80000004#32) := by decide

/-- I11. -/
theorem test_sltiu_false :
    result (machine P [(1, 0x00000007#32)] 0x0010B193) 3 = some (0x00000000#32, 0x80000004#32) := by decide

/-- I12. -/
theorem test_xori_minus_one_is_not :
    result (machine P [(1, 0x0000FFFF#32)] 0xFFF0C193) 3 = some (0xFFFF0000#32, 0x80000004#32) := by decide

/-- I13. -/
theorem test_ori :
    result (machine P [(1, 0x0000000F#32)] 0x0F00E193) 3 = some (0x000000FF#32, 0x80000004#32) := by decide

/-- I14. -/
theorem test_andi_sign_extended_mask :
    result (machine P [(1, 0x1234567F#32)] 0xFF00F193) 3 = some (0x12345670#32, 0x80000004#32) := by decide

/-- I15. -/
theorem test_andi :
    result (machine P [(1, 0x12345678#32)] 0x0FF0F193) 3 = some (0x00000078#32, 0x80000004#32) := by decide

/-- I16. -/
theorem test_slli_by_31 :
    result (machine P [(1, 0x00000003#32)] 0x01F09193) 3 = some (0x80000000#32, 0x80000004#32) := by decide

/-- I18. -/
theorem test_slli_ignores_bit_30 :
    result (machine P [(1, 0x00000001#32)] 0x40409193) 3 = some (0x00000010#32, 0x80000004#32) := by decide

/-- I19. -/
theorem test_srli_fills_with_zeros :
    result (machine P [(1, 0x80000000#32)] 0x0040D193) 3 = some (0x08000000#32, 0x80000004#32) := by decide

/-- I20. -/
theorem test_srli_ignores_bit_25 :
    result (machine P [(1, 0x80000000#32)] 0x0240D193) 3 = some (0x08000000#32, 0x80000004#32) := by decide

/-- I21. -/
theorem test_srai_fills_with_sign :
    result (machine P [(1, 0x80000000#32)] 0x4040D193) 3 = some (0xF8000000#32, 0x80000004#32) := by decide

/-- I23. -/
theorem test_srai_positive :
    result (machine P [(1, 0x40000000#32)] 0x41F0D193) 3 = some (0x00000000#32, 0x80000004#32) := by decide

/-! ## Loads (3.3) -/

/-- L1. -/
theorem test_lb_sign_extends :
    result (loadedWith P [(1, 0x80000100#32)] 0x00008183) 3 = some (0xFFFFFF80#32, 0x80000004#32) := by decide

/-- L2. -/
theorem test_lb_positive :
    result (loadedWith P [(1, 0x80000100#32)] 0x00108183) 3 = some (0x0000007F#32, 0x80000004#32) := by decide

/-- L3. -/
theorem test_lbu_zero_extends :
    result (loadedWith P [(1, 0x80000100#32)] 0x0000C183) 3 = some (0x00000080#32, 0x80000004#32) := by decide

/-- L4. -/
theorem test_lh_little_endian :
    result (loadedWith P [(1, 0x80000100#32)] 0x00009183) 3 = some (0x00007F80#32, 0x80000004#32) := by decide

/-- L5. -/
theorem test_lh_misaligned_sign_extends :
    result (loadedWith P [(1, 0x80000100#32)] 0x00109183) 3 = some (0xFFFFFF7F#32, 0x80000004#32) := by decide

/-- L6. -/
theorem test_lhu_misaligned_zero_extends :
    result (loadedWith P [(1, 0x80000100#32)] 0x0010D183) 3 = some (0x0000FF7F#32, 0x80000004#32) := by decide

/-- L8. -/
theorem test_lw_misaligned :
    result (loadedWith P [(1, 0x80000100#32)] 0x0010A183) 3 = some (0x0001FF7F#32, 0x80000004#32) := by decide

/-- L16. -/
theorem test_lw_into_its_base :
    result (loadedWith P [(1, 0x80000100#32)] 0x0000A083) 1 = some (0x01FF7F80#32, 0x80000004#32) := by decide

/-! ## Stores (3.4) -/

/-- S1. -/
theorem test_sw_little_endian :
    stored (machine P [(1, 0x80000100#32), (2, 0x12345678#32)] 0x0020A023) 0x80000100 4 =
      some [0x78#8, 0x56#8, 0x34#8, 0x12#8] := by decide

/-- S4. -/
theorem test_sw_misaligned :
    stored (machine P [(1, 0x80000100#32), (2, 0x11223344#32)] 0x0020A123) 0x80000100 8 =
      some [0x00#8, 0x00#8, 0x44#8, 0x33#8, 0x22#8, 0x11#8, 0x00#8, 0x00#8] := by decide

/-- S2. -/
theorem test_sh_low_half :
    stored (machine P [(1, 0x80000100#32), (2, 0x12345678#32)] 0x00209123) 0x80000100 4 =
      some [0x00#8, 0x00#8, 0x78#8, 0x56#8] := by decide

/-- S6. -/
theorem test_sh_straddling_the_end_faults :
    stops (machine P [(1, 0x80001000#32), (2, 0x0000FFFF#32)] 0xFE209FA3) = some (.memFault .store 0x80000FFF#32 .half) := by
  decide

/-- S3. -/
theorem test_sb_low_byte :
    stored (machine P [(1, 0x80000101#32), (2, 0xABCDEFAA#32)] 0xFE208FA3) 0x80000100 4 =
      some [0xAA#8, 0x00#8, 0x00#8, 0x00#8] := by decide

/-- S5. -/
theorem test_sb_last_byte_of_the_window :
    stored (machine P [(1, 0x80001000#32), (2, 0x0000005A#32)] 0xFE208FA3) 0x80000FFF 1 = some [0x5A#8] := by decide

/-! ## Branches (3.5), at P + 0x10 -/

/-- B1. -/
theorem test_beq_taken :
    result (machine (P + 0x10#32) [(1, 0x00000007#32), (2, 0x00000007#32)] 0x00208463) 0 = some (0x00000000#32, 0x80000018#32) := by decide

/-- B2. -/
theorem test_beq_not_taken :
    result (machine (P + 0x10#32) [(1, 0x00000007#32), (2, 0x00000008#32)] 0x00208463) 0 = some (0x00000000#32, 0x80000014#32) := by decide

/-- B3. -/
theorem test_bne_taken_backwards :
    result (machine (P + 0x10#32) [(1, 0x00000007#32), (2, 0x00000008#32)] 0xFE209CE3) 0 = some (0x00000000#32, 0x80000008#32) := by decide

/-- B4. -/
theorem test_bne_same_register :
    result (machine (P + 0x10#32) [(1, 0x00000007#32)] 0xFE109CE3) 0 = some (0x00000000#32, 0x80000014#32) := by decide

/-- B5. -/
theorem test_blt_is_signed :
    result (machine (P + 0x10#32) [(1, 0x80000000#32), (2, 0x7FFFFFFF#32)] 0x0020C863) 0 = some (0x00000000#32, 0x80000020#32) := by decide

/-- B6. -/
theorem test_blt_equal_not_taken :
    result (machine (P + 0x10#32) [(1, 0x00000003#32), (2, 0x00000003#32)] 0x0020C863) 0 = some (0x00000000#32, 0x80000014#32) := by decide

/-- B7. -/
theorem test_bge_equal_taken :
    result (machine (P + 0x10#32) [(1, 0x00000003#32), (2, 0x00000003#32)] 0x0020D863) 0 = some (0x00000000#32, 0x80000020#32) := by decide

/-- B8. -/
theorem test_bge_is_signed :
    result (machine (P + 0x10#32) [(1, 0xFFFFFFFF#32), (2, 0x00000000#32)] 0x0020D863) 0 = some (0x00000000#32, 0x80000014#32) := by decide

/-- B9. -/
theorem test_bltu_is_unsigned :
    result (machine (P + 0x10#32) [(1, 0x80000000#32), (2, 0x7FFFFFFF#32)] 0x0020E863) 0 = some (0x00000000#32, 0x80000014#32) := by decide

/-- B10. -/
theorem test_bltu_taken :
    result (machine (P + 0x10#32) [(1, 0x00000000#32), (2, 0xFFFFFFFF#32)] 0x0020E863) 0 = some (0x00000000#32, 0x80000020#32) := by decide

/-- B11. -/
theorem test_bgeu_is_unsigned :
    result (machine (P + 0x10#32) [(1, 0x00000000#32), (2, 0xFFFFFFFF#32)] 0x0020F863) 0 = some (0x00000000#32, 0x80000014#32) := by decide

/-- B12. -/
theorem test_bgeu_zero :
    result (machine (P + 0x10#32) [(1, 0x00000000#32)] 0x0000F863) 0 = some (0x00000000#32, 0x80000020#32) := by decide

/-! ## Upper immediates (3.6) -/

/-- U1. -/
theorem test_lui :
    result (machine P [] 0x123450B7) 1 = some (0x12345000#32, 0x80000004#32) := by decide

/-- U2. -/
theorem test_lui_largest :
    result (machine P [] 0xFFFFF0B7) 1 = some (0xFFFFF000#32, 0x80000004#32) := by decide

/-- U4. -/
theorem test_auipc_adds_to_own_address :
    result (machine (P + 0x10#32) [] 0x00001097) 1 = some (0x80001010#32, 0x80000014#32) := by decide

/-- U6. -/
theorem test_auipc_wraps :
    result (machine P [] 0x80000097) 1 = some (0x00000000#32, 0x80000004#32) := by decide

/-! ## Jumps (3.7), at P + 0x20 -/

/-- J3. -/
theorem test_jal_backwards :
    result (machine (P + 0x20#32) [] 0xFE1FF0EF) 1 = some (0x80000024#32, 0x80000000#32) := by decide

/-- J5. -/
theorem test_jal_target_two_mod_four :
    result (machine (P + 0x20#32) [] 0x002000EF) 1 = some (0x80000024#32, 0x80000022#32) := by decide

/-- J7. -/
theorem test_jalr_target_is_old_base :
    result (machine (P + 0x20#32) [(1, 0x80000040#32)] 0x000080E7) 1 = some (0x80000024#32, 0x80000040#32) := by decide

/-- J6. -/
theorem test_jalr_clears_bit_0 :
    result (machine (P + 0x20#32) [(5, 0x80000101#32)] 0x004280E7) 1 = some (0x80000024#32, 0x80000104#32) := by decide

/-! ## FENCE (3.8) -/

/-- F1. -/
theorem test_fence :
    result (machine P [(1, 0x00001111#32), (2, 0x00002222#32)] 0x0FF0000F) 1 = some (0x00001111#32, 0x80000004#32) := by decide

/-- F2. -/
theorem test_fence_i_is_fence :
    result (machine P [(1, 0x00001111#32), (2, 0x00002222#32)] 0x0000100F) 1 = some (0x00001111#32, 0x80000004#32) := by decide

/-! ## Multiply and divide (3.9) -/

/-- M1. -/
theorem test_mul_minus_one_squared :
    result (machine P [(1, 0xFFFFFFFF#32), (2, 0xFFFFFFFF#32)] 0x022081B3) 3 = some (0x00000001#32, 0x80000004#32) := by decide

/-- M3. -/
theorem test_mul_negative :
    result (machine P [(1, 0xFFFFFFF9#32), (2, 0x00000002#32)] 0x022081B3) 3 = some (0xFFFFFFF2#32, 0x80000004#32) := by decide

/-- M5. -/
theorem test_mulh_min_squared :
    result (machine P [(1, 0x80000000#32), (2, 0x80000000#32)] 0x022091B3) 3 = some (0x40000000#32, 0x80000004#32) := by decide

/-- M6. -/
theorem test_mulh_negative :
    result (machine P [(1, 0xFFFFFFF9#32), (2, 0x00000002#32)] 0x022091B3) 3 = some (0xFFFFFFFF#32, 0x80000004#32) := by decide

/-- M7. -/
theorem test_mulhsu_rs1_is_signed :
    result (machine P [(1, 0xFFFFFFFF#32), (2, 0xFFFFFFFF#32)] 0x0220A1B3) 3 = some (0xFFFFFFFF#32, 0x80000004#32) := by decide

/-- M8. -/
theorem test_mulhsu_rs2_is_unsigned :
    result (machine P [(1, 0x00000002#32), (2, 0xFFFFFFFF#32)] 0x0220A1B3) 3 = some (0x00000001#32, 0x80000004#32) := by decide

/-- M9. -/
theorem test_mulhu :
    result (machine P [(1, 0xFFFFFFFF#32), (2, 0xFFFFFFFF#32)] 0x0220B1B3) 3 = some (0xFFFFFFFE#32, 0x80000004#32) := by decide

/-- M11. -/
theorem test_div_truncates_toward_zero :
    result (machine P [(1, 0xFFFFFFF9#32), (2, 0x00000002#32)] 0x0220C1B3) 3 = some (0xFFFFFFFD#32, 0x80000004#32) := by decide

/-- M15. -/
theorem test_div_overflow :
    result (machine P [(1, 0x80000000#32), (2, 0xFFFFFFFF#32)] 0x0220C1B3) 3 = some (0x80000000#32, 0x80000004#32) := by decide

/-- M16. -/
theorem test_divu :
    result (machine P [(1, 0xFFFFFFFF#32), (2, 0x00000002#32)] 0x0220D1B3) 3 = some (0x7FFFFFFF#32, 0x80000004#32) := by decide

/-- M17. -/
theorem test_divu_by_zero :
    result (machine P [(1, 0x00000007#32), (2, 0x00000000#32)] 0x0220D1B3) 3 = some (0xFFFFFFFF#32, 0x80000004#32) := by decide

/-- M19. -/
theorem test_rem_has_sign_of_dividend :
    result (machine P [(1, 0xFFFFFFF9#32), (2, 0x00000002#32)] 0x0220E1B3) 3 = some (0xFFFFFFFF#32, 0x80000004#32) := by decide

/-- M22. -/
theorem test_rem_by_zero :
    result (machine P [(1, 0xFFFFFFF9#32), (2, 0x00000000#32)] 0x0220E1B3) 3 = some (0xFFFFFFF9#32, 0x80000004#32) := by decide

/-- M24. -/
theorem test_remu :
    result (machine P [(1, 0xFFFFFFF9#32), (2, 0x00000002#32)] 0x0220F1B3) 3 = some (0x00000001#32, 0x80000004#32) := by decide

/-- M25. -/
theorem test_remu_by_zero :
    result (machine P [(1, 0xFFFFFFF9#32), (2, 0x00000000#32)] 0x0220F1B3) 3 = some (0xFFFFFFF9#32, 0x80000004#32) := by decide
/-! ## Faults, undefined words, the driver -/

/-- L12, L13, L14: a word past the end, a byte below the base, and a load to x0. -/
theorem test_loads_outside_fault :
    stops (machine P [] 0xFFD12183) = some (.memFault .load 0x80000FFD#32 .word) ∧
    stops (machine P [(1, 0x80000000#32)] 0xFFF08183) = some (.memFault .load 0x7FFFFFFF#32 .byte) ∧
    stops (machine P [] 0x00002003) = some (.memFault .load 0x00000000#32 .word) := by decide

/-- S6, with R93 and R224: nothing is committed and the mark is set. -/
theorem test_fault_commits_nothing :
    stateAfter (machine P [(1, 0x80001000#32), (2, 0x0000FFFF#32)] 0xFE209FA3)
      (step (machine P [(1, 0x80001000#32), (2, 0x0000FFFF#32)] 0xFE209FA3)) =
    { machine P [(1, 0x80001000#32), (2, 0x0000FFFF#32)] 0xFE209FA3 with
      faultMark := some (.memFault .store 0x80000FFF#32 .half) } := by decide

/-- F5: an undefined word is a no-op. -/
theorem test_undefined_word_is_a_no_op :
    result (machine P [(1, 0x00001111#32), (2, 0x00002222#32)] 0x300110F3) 1 = some (0x00001111#32, 0x80000004#32) := by
  decide

/-- L17: an undefined load word makes no access. -/
theorem test_undefined_load_makes_no_access :
    result (machine P [(1, 0x00000000#32), (3, 0x00000055#32)] 0x0000B183) 3 = some (0x00000055#32, 0x80000004#32) := by
  decide

/-- The values of 10_state.md R35 in the reference configuration. -/
theorem test_reset :
    State.reset.pc = 0x80000000#32 ∧ State.reset.readReg 2 = 0x80001000#32 ∧ State.reset.readReg 0 = 0#32 ∧
    State.reset.faultMark = none := by decide

/-- `validStep`'s answer: a Boolean, or the fault. -/
def valid (s : State) : Option (Bool ⊕ Fault) :=
  match validStep s with
  | .next b => some (.inl b)
  | .fault f => some (.inr f)
  | .refused _ => none

/-- The rows of 3.10: a non-zero word, a zero word, the end, beyond it, the last bytes, below the base. -/
theorem test_valid_step :
    valid (machine P [] 0x00500093) = some (.inl true) ∧ valid (machine 0x80000008#32 [] 0) = some (.inl false) ∧
    valid (machine 0x80001000#32 [] 0) = some (.inl false) ∧ valid (machine 0xFFFFFFFC#32 [] 0) = some (.inl false) ∧
    valid (machine 0x80000FFE#32 [] 0) = some (.inr (.memFault .fetch 0x80000FFE#32 .word)) ∧
    valid (machine 0x7FFFFFFC#32 [] 0) = some (.inr (.memFault .fetch 0x7FFFFFFC#32 .word)) ∧
    valid (machine 0x80000FFC#32 [] 0x00000013) = some (.inl true) := by decide

/-- The refusal an operation answers. -/
def refusal {α : Type} (o : Host.Outcome α Fault Refusal) : Option Refusal :=
  match o with
  | .refused r => some r
  | _ => none

/-- The state after reset, with other parameters. -/
def onConfig (c : Config) : State := { State.reset with cfg := c }

/-- R241: an image longer than the memory is refused. -/
theorem test_image_too_large : refusal (loadImage [1#8, 2#8] (onConfig ⟨P, 1, true⟩)) = some .imageTooLarge := by decide

/-- R9: with a window that reaches the end of the address space nothing is done. -/
theorem test_ill_formed_configuration_is_refused :
    refusal (loadImage [] (onConfig ⟨P, 0x80000000, true⟩)) = some .configNotWellFormed ∧
    refusal (initHart (onConfig ⟨P, 0x80000000, true⟩)) = some .configNotWellFormed ∧
    refusal (step (onConfig ⟨P, 0x80000000, true⟩)) = some .configNotWellFormed ∧
    refusal (Sys2Proof.Machine.exec (.lw 0 0 0#12) (onConfig ⟨P, 0x80000000, true⟩)) = some .configNotWellFormed := by decide

/-- R102: init from any pc and x2. -/
theorem test_init :
    (nextOf (initHart (machine 0x12345678#32 [(1, 7#32), (2, 9#32)] 0))).map
      (fun t => (t.pc, t.readReg 1, t.readReg 2)) = some (0x80000000#32, 7#32, 0x80001000#32) := by decide

/-! ## Witnesses for the hypotheses of the statements -/

/-- DecodedOperandsAreTheFieldsOfTheWord, DecodedInstructionsAreWellFormed: words that decode, with and without the unit. -/
theorem witness_decoded : decode true 0x80000063#32 = .instr (.beq 0 0 0x1000#13) ∧
    decode true 0x022081B3#32 = .instr (.mul 3 1 2) ∧ decode false 0x800000EF#32 = .instr (.jal 1 0x100000#21) := by decide

/-- DecodeOfEncodeIsTheInstruction: well-formed terms at the edges of their fields. -/
theorem witness_wellFormed : Instr.wf false (.jal 31 0x1FFFFE#21) = true ∧ Instr.wf false (.bgeu 31 0 0x1000#13) = true ∧
    Instr.wf true (.remu 31 31 31) = true ∧ Instr.wf false (.addi 0 31 0xFFF#12) = true := by decide

/-- UndefinedWordsAreExactlyTheListedOnes: a word for each clause, and a word of none. -/
theorem witness_undefined_clauses :
    (0x0000007F % 2 ^ 7 ∉ [0x33, 0x13, 0x03, 0x23, 0x63, 0x37, 0x17, 0x6F, 0x67, 0x0F]) ∧
    (0x00007003 % 2 ^ 7 = 0x03 ∧ 0x00007003 / 2 ^ 12 % 2 ^ 3 ∈ [3, 6, 7]) ∧
    (0x00003023 % 2 ^ 7 = 0x23 ∧ 0x00003023 / 2 ^ 12 % 2 ^ 3 ∈ [3, 4, 5, 6, 7]) ∧
    (0x00002063 % 2 ^ 7 = 0x63 ∧ 0x00002063 / 2 ^ 12 % 2 ^ 3 ∈ [2, 3]) ∧
    decode true 0x00002003#32 = .instr (.lw 0 0 0#12) := by decide

/-- BaseRowsAndMulDivRowsEachDoNotOverlap: a word of a base row, and a word of a multiply/divide row. -/
theorem witness_rows : (∃ r ∈ rRows ++ iRows ++ memRows ++ flowRows, r.covers true 0xFFFFFFEF#32 = true) ∧
    (∃ r ∈ mulDivRows, r.covers true 0x03FFFFB3#32 = true) := by decide

/-- MemReadIsLittleEndianAndZeroExtended, MemWriteStoresExactlyItsBytes: the last word of the window, and the two words
that stick out of it by one byte. -/
theorem witness_accesses :
    (∀ k, k < AccessWidth.word.bytes → inWindow Config.reference ((0x80000FFC#32).toNat + k) = true) ∧
    (∃ k, k < AccessWidth.word.bytes ∧ inWindow Config.reference ((0x80000FFD#32).toNat + k) = false) ∧
    (∃ k, k < AccessWidth.word.bytes ∧ inWindow Config.reference ((0x7FFFFFFF#32).toNat + k) = false) := by
  refine ⟨by decide, ⟨3, by decide⟩, ⟨0, by decide⟩⟩

/-- WindowIsHalfOpen: the first byte, the last, the one before and the end. -/
theorem witness_window : inWindow Config.reference 0x80000000 = true ∧ inWindow Config.reference 0x80000FFF = true ∧
    inWindow Config.reference 0x7FFFFFFF = false ∧ inWindow Config.reference 0x80001000 = false := by decide

/-- CanonicalMemoriesThatReadAlikeAreEqual: two memories written in different orders, one with a byte overwritten. -/
theorem witness_canonical :
    ((Memory.empty.write 5 1#8).write 3 2#8).wf = true ∧ (((Memory.empty.write 3 9#8).write 5 1#8).write 3 2#8).wf = true ∧
    ∀ a, ((Memory.empty.write 5 1#8).write 3 2#8).read a = (((Memory.empty.write 3 9#8).write 5 1#8).write 3 2#8).read a :=
  ⟨by decide, by decide, fun _ => rfl⟩

/-- StoredValueIsLoadedBack: the last word, halfword and byte of the window. -/
theorem witness_stores_go_on :
    (∃ t, Sys2Proof.Machine.exec (.sw 2 1 0xFFC#12) State.reset = .next t) ∧
    (∃ t, Sys2Proof.Machine.exec (.sh 2 1 0xFFE#12) State.reset = .next t) ∧
    (∃ t, Sys2Proof.Machine.exec (.sb 2 1 0xFFF#12) State.reset = .next t) := ⟨⟨_, rfl⟩, ⟨_, rfl⟩, ⟨_, rfl⟩⟩

/-- StoreIsSeenByTheNextFetch: a store over the next word. -/
theorem witness_store_ahead :
    (machine P [(1, 0x80000000#32), (3, 0x00500093#32)] 0x0030A223).Running ∧
    (machine P [(1, 0x80000000#32), (3, 0x00500093#32)] 0x0030A223).readReg 1 + (4#12).signExtend 32 =
      (machine P [(1, 0x80000000#32), (3, 0x00500093#32)] 0x0030A223).pc + 4#32 ∧
    ∃ t, Sys2Proof.Machine.exec (.sw 1 3 4#12) (machine P [(1, 0x80000000#32), (3, 0x00500093#32)] 0x0030A223) = .next t :=
  ⟨by decide, by decide, ⟨_, rfl⟩⟩

/-- The word at the pc of a state, as StepRunsTheDecodedInstruction writes it. -/
def wordAtPc (s : State) : Word :=
  s.mem.read (s.pc.toNat + 3) ++ s.mem.read (s.pc.toNat + 2) ++ s.mem.read (s.pc.toNat + 1) ++ s.mem.read s.pc.toNat

/-- StepRunsTheDecodedInstruction, UndefinedWordOnlyAdvancesThePc: the last word of the window holds an instruction; the
first holds an undefined encoding. -/
theorem witness_steps :
    (machine 0x80000FFC#32 [] 0x00500093).Running ∧ (machine 0x80000FFC#32 [] 0x00500093).Holds 0x80000FFC#32 4 ∧
    decode true (wordAtPc (machine 0x80000FFC#32 [] 0x00500093)) = .instr (.addi 1 0 5#12) ∧
    (machine P [] 0x00000073).Running ∧ (machine P [] 0x00000073).Holds P 4 ∧
    decode true (wordAtPc (machine P [] 0x00000073)) = .undefined .opcode ∧ (0x00000012#32).toNat % 4 ≠ 3 := by decide

/-- OnlyAccessesOutsideTheWindowStopAStep: a fetch that sticks out of the window, a load that does, and a step that goes
on. The first two and witness_faults meet FaultLeavesTheStateMarkedAndStuck. -/
theorem witness_stops :
    State.Running { State.reset with pc := 0x80000FFD#32 } ∧ ¬ State.Holds State.reset 0x80000FFD#32 4 ∧
    stops { State.reset with pc := 0x80000FFD#32 } = some (.memFault .fetch 0x80000FFD#32 .word) ∧
    (machine P [] 0xFFD12183).Running ∧ stops (machine P [] 0xFFD12183) = some (.memFault .load 0x80000FFD#32 .word) ∧
    (machine P [] 0xFFC12183).Running ∧ result (machine P [] 0xFFC12183) 3 = some (0#32, 0x80000004#32) := by decide

/-- FaultLeavesTheStateMarkedAndStuck. -/
theorem witness_faults : (machine P [] 0xFFD12183).Running ∧
    step (machine P [] 0xFFD12183) = .fault (.memFault .load 0x80000FFD#32 .word) := ⟨by decide, rfl⟩

/-- IllFormedConfigurationIsRefused: no memory, and a window one byte too long. -/
theorem witness_ill_formed :
    ¬ (1 ≤ (onConfig ⟨P, 0, true⟩).cfg.memSize ∧ P.toNat + (onConfig ⟨P, 0, true⟩).cfg.memSize < 2 ^ 32) ∧
    ¬ (1 ≤ (onConfig ⟨P, 0x80000000, true⟩).cfg.memSize ∧
      P.toNat + (onConfig ⟨P, 0x80000000, true⟩).cfg.memSize < 2 ^ 32) := by decide

/-- InitWritesThePcAndRegister2Only, ResetHoldsTheStatedValues, ResetHasTheInvariant: the reference configuration, and the
largest window there can be. -/
theorem witness_config : Config.reference.wf = true ∧ Config.wf ⟨0#32, 0xFFFFFFFF, false⟩ = true ∧
    Config.wf ⟨P, 0x7FFFFFFF, true⟩ = true := by decide

/-- ValidStepAnswersByBoundThenWord: the pc at the end, at the last byte, below the base, and at the last word. -/
theorem witness_validStep :
    State.Running { State.reset with pc := 0x80001000#32 } ∧ 0x80000000 + 0x1000 ≤ (0x80001000#32).toNat ∧
    (0x80000FFF#32).toNat < 0x80000000 + 0x1000 ∧ ¬ State.Holds State.reset 0x80000FFF#32 4 ∧
    (0x7FFFFFFF#32).toNat < 0x80000000 + 0x1000 ∧ ¬ State.Holds State.reset 0x7FFFFFFF#32 4 ∧
    (0x80000FFC#32).toNat < 0x80000000 + 0x1000 ∧ State.Holds State.reset 0x80000FFC#32 4 := by decide

/-- RunsEndAsValidStepAndTheFaultMarkSay: a run that halts, and one that faults at its second step (P6). -/
theorem witness_runs : hostRun 1 State.reset = .halted State.reset ∧
    (match hostRun 1 (machine P [] 0x00002303) with | .faulted t => t.faultMark | _ => none) =
      some (.memFault .load 0#32 .word) := by decide

/-- StepKeepsTheInvariant, StepKeepsThePcEven, StepKeepsParametersAndMark, the first clause of EveryStepZeroesSlot0: a
state with the invariant and an even pc whose step goes on, with a branch taken and with a store. -/
theorem witness_invariant :
    (machine P [] 0x00000163).Inv ∧ (machine P [] 0x00000163).pc.getLsbD 0 = false ∧
    result (machine P [] 0x00000163) 0 = some (0#32, 0x80000002#32) ∧
    (machine P [(1, 0x00000055#32)] 0xFE110FA3).Inv ∧
    stored (machine P [(1, 0x00000055#32)] 0xFE110FA3) 0x80000FFF 1 = some [0x55#8] := by decide

/-- EveryStepZeroesSlot0, second clause: a load and a jump into x0. -/
theorem witness_slot0 : destOf (.lw 0 2 0xFFC#12) = some 0 ∧ destOf (.jal 0 8#21) = some 0 ∧
    (∃ t, Sys2Proof.Machine.exec (.lw 0 2 0xFFC#12) State.reset = .next t) ∧
    (∃ t, Sys2Proof.Machine.exec (.jal 0 8#21) State.reset = .next t) := ⟨rfl, rfl, ⟨_, rfl⟩, ⟨_, rfl⟩⟩

/-- InstructionsWriteOnlyTheirDestination: a register beside the destination, and a store, which has none. -/
theorem witness_frame : destOf (.addi 1 0 5#12) ≠ some 31 ∧ destOf (.sw 2 1 0xFFC#12) ≠ some 0 ∧
    (∃ t, Sys2Proof.Machine.exec (.addi 1 0 5#12) State.reset = .next t) := ⟨by decide, by decide, ⟨_, rfl⟩⟩

/-- OnlyStoresChangeMemory: the byte before and the byte after a stored word, and any byte for a load. -/
theorem witness_store_frame :
    accessOf State.reset (.sw 2 1 0xFF8#12) = some (.store, 0x80000FF8#32, .word) ∧
    (0x80000FF7 < (0x80000FF8#32).toNat ∨ (0x80000FF8#32).toNat + AccessWidth.word.bytes ≤ 0x80000FF7) ∧
    (0x80000FFC < (0x80000FF8#32).toNat ∨ (0x80000FF8#32).toNat + AccessWidth.word.bytes ≤ 0x80000FFC) ∧
    accessOf State.reset (.lw 1 2 0xFF8#12) = some (.load, 0x80000FF8#32, .word) ∧
    (∃ t, Sys2Proof.Machine.exec (.sw 2 1 0xFF8#12) State.reset = .next t) :=
  ⟨by decide, by decide, by decide, by decide, ⟨_, rfl⟩⟩

/-- OnlyBranchesAndJumpsRedirectThePc: a taken branch to itself. -/
theorem witness_redirect :
    (nextOf (Sys2Proof.Machine.exec (.beq 0 0 0#13) State.reset)).map (·.pc) = some P ∧ P ≠ P + 4#32 := by decide

/-- AddiEncodingAndSum, LuiEncodingAndValue, AuipcEncodingAndValue, JalEncodingLinkAndTarget, JalrEncodingLinkAndTarget,
FenceOnlyAdvancesThePc: a word with every free bit set. -/
theorem witness_masks :
    (0xFFFF8F93#32 : Word) &&& 0x0000707F#32 = 0x00000013#32 ∧ (0xFFFFFFB7#32 : Word) &&& 0x0000007F#32 = 0x00000037#32 ∧
    (0xFFFFFF97#32 : Word) &&& 0x0000007F#32 = 0x00000017#32 ∧ (0xFFFFFFEF#32 : Word) &&& 0x0000007F#32 = 0x0000006F#32 ∧
    (0xFFFFFFE7#32 : Word) &&& 0x0000007F#32 = 0x00000067#32 ∧ (0xFFFFFF8F#32 : Word) &&& 0x0000007F#32 = 0x0000000F#32 := by
  decide

/-- Every statement of an instruction's result: the reset state has legal parameters; and these legal ones lie at the edge. -/
theorem witness_legal_parameters : State.reset.cfg.wf = true ∧ (onConfig ⟨0xFFFFFFFE#32, 1, true⟩).cfg.wf = true := by decide

/-- ByteLoads, HalfwordLoads, WordLoad, StoresWriteTheLowBytes, and the two statements of their faults: the effective
addresses around both ends of the window, from x2 and from x0. -/
theorem witness_effective_addresses :
    State.reset.readReg 2 + (0xFFF#12).signExtend 32 = 0x80000FFF#32 ∧
    State.Holds State.reset 0x80000FFF#32 1 ∧ ¬ State.Holds State.reset 0x80001000#32 1 ∧
    State.Holds State.reset 0x80000FFE#32 2 ∧ ¬ State.Holds State.reset 0x80000FFF#32 2 ∧
    State.Holds State.reset 0x80000FFC#32 4 ∧ ¬ State.Holds State.reset 0x80000FFD#32 4 ∧
    State.Holds State.reset 0x80000000#32 4 ∧ ¬ State.Holds State.reset 0x7FFFFFFF#32 4 ∧
    State.reset.readReg 0 + (0#12).signExtend 32 = 0#32 ∧ ¬ State.Holds State.reset 0#32 1 := by decide

/-- SignedDivisionCases, UnsignedDivisionCases, QuotientAndRemainderLaws: divisor 0, the overflow pair, and the values
next to it; rd is not x0. -/
theorem witness_divisions :
    (machine P [(1, 0x80000000#32), (2, 0xFFFFFFFF#32)] 0).readReg 1 = 0x80000000#32 ∧
    (machine P [(1, 0x80000000#32), (2, 0xFFFFFFFF#32)] 0).readReg 2 = 0xFFFFFFFF#32 ∧
    (machine P [(1, 0x80000001#32), (2, 0xFFFFFFFF#32)] 0).readReg 2 ≠ 0#32 ∧
    ¬ ((machine P [(1, 0x80000001#32), (2, 0xFFFFFFFF#32)] 0).readReg 1 = 0x80000000#32 ∧
      (machine P [(1, 0x80000001#32), (2, 0xFFFFFFFF#32)] 0).readReg 2 = 0xFFFFFFFF#32) ∧
    (machine P [(1, 0x00000007#32), (2, 0x00000000#32)] 0).readReg 2 = 0#32 ∧ (3 : RegIdx) ≠ 0 := by decide

end Sys2Proof.Tests
end

section
/-! The decoder's fields and immediates, read from the word's bits (30_encoding.md sections 1 and 2): what each field is
as a number, and which bit of the word stands at each place of each immediate. -/

namespace Sys2Proof

/-! ## The fields as numbers (R62 to R68) -/

theorem extractLsb'_toNat_eq_div_mod (w : Word) (lo len : Nat) :
    (w.extractLsb' lo len).toNat = w.toNat / 2 ^ lo % 2 ^ len := by
  rw [BitVec.extractLsb'_toNat, Nat.shiftRight_eq_div_pow]

theorem opcodeField_toNat (w : Word) : (opcodeField w).toNat = w.toNat % 2 ^ 7 := by
  rw [opcodeField, extractLsb'_toNat_eq_div_mod, pow_zero, Nat.div_one]

theorem rdField_val (w : Word) : (rdField w).val = w.toNat / 2 ^ 7 % 2 ^ 5 :=
  extractLsb'_toNat_eq_div_mod w 7 5

theorem funct3Field_toNat (w : Word) : (funct3Field w).toNat = w.toNat / 2 ^ 12 % 2 ^ 3 :=
  extractLsb'_toNat_eq_div_mod w 12 3

theorem rs1Field_val (w : Word) : (rs1Field w).val = w.toNat / 2 ^ 15 % 2 ^ 5 :=
  extractLsb'_toNat_eq_div_mod w 15 5

theorem rs2Field_val (w : Word) : (rs2Field w).val = w.toNat / 2 ^ 20 % 2 ^ 5 :=
  extractLsb'_toNat_eq_div_mod w 20 5

/-- The field reaches the top of the word, so nothing is above it to cut off. -/
theorem funct7Field_toNat (w : Word) : (funct7Field w).toNat = w.toNat / 2 ^ 25 := by
  have small : w.toNat / 2 ^ 25 < 2 ^ 7 := Nat.div_lt_of_lt_mul w.isLt
  rw [funct7Field, extractLsb'_toNat_eq_div_mod, Nat.mod_eq_of_lt small]

theorem funct7Field_bit5 (w : Word) : (funct7Field w).getLsbD 5 = altBit w := by
  simp [funct7Field, altBit]

theorem shamtField_toNat (w : Word) : (shamtField w).toNat = (rs2Field w).val := rfl

/-- Settles O2: each field is cut out by `extractLsb'`, whose number is a quotient and a remainder. -/
theorem fieldsAreTheNumbersOfTheirBits : Obligations.FieldsAreTheNumbersOfTheirBits := fun w =>
  ⟨opcodeField_toNat w, rdField_val w, funct3Field_toNat w, rs1Field_val w, rs2Field_val w, funct7Field_toNat w,
    funct7Field_bit5 w, rfl⟩

/-! ## The immediates bit by bit (R69 to R73) -/

/-- Sign extension repeats the topmost bit of the immediate. -/
theorem signExtend_getLsbD {n : Nat} (imm : BitVec (n + 1)) {i : Nat} (hi : i < 32) :
    (imm.signExtend 32).getLsbD i = if i < n then imm.getLsbD i else imm.getLsbD n := by
  rw [BitVec.getLsbD_signExtend, BitVec.msb_eq_getLsbD_last, Nat.add_sub_cancel]
  obtain below | rfl | above := lt_trichotomy i n
  · simp [hi, below, Nat.lt_succ_of_lt below]
  · simp [hi]
  · simp [hi, above.not_gt, show ¬ i < n + 1 by omega]

theorem immIField_getLsbD (w : Word) {i : Nat} (hi : i < 12) : (immIField w).getLsbD i = w.getLsbD (i + 20) := by
  simp [immIField, hi, Nat.add_comm]

/-- The bits of a part of the word joined below `a`: first the part's own, then those of `a`. -/
theorem append_part_getLsbD {n : Nat} (a : BitVec n) (w : Word) (lo len i : Nat) :
    (a ++ w.extractLsb' lo len).getLsbD i = if i < len then w.getLsbD (lo + i) else a.getLsbD (i - len) := by
  rw [BitVec.getLsbD_append, BitVec.getLsbD_extractLsb']
  split <;> simp [*]

theorem append_zero_getLsbD {n : Nat} (a : BitVec n) (i : Nat) :
    (a ++ 0#1).getLsbD i = if i = 0 then false else a.getLsbD (i - 1) := by
  simp [BitVec.getLsbD_append]

theorem immSField_getLsbD (w : Word) {i : Nat} (hi : i < 12) :
    (immSField w).getLsbD i = if i < 5 then w.getLsbD (i + 7) else w.getLsbD (i + 20) := by
  refine (append_part_getLsbD _ w 7 5 i).trans ?_
  split
  next low => rw [Nat.add_comm]
  next high => simp [show i - 5 < 7 by omega, show 25 + (i - 5) = i + 20 by omega]

theorem immBField_getLsbD (w : Word) {i : Nat} (hi : i < 13) :
    (immBField w).getLsbD i =
      if i = 0 then false else if i < 5 then w.getLsbD (i + 7) else if i < 11 then w.getLsbD (i + 20)
      else if i = 11 then w.getLsbD 7 else w.getLsbD 31 := by
  refine (append_zero_getLsbD _ i).trans ?_
  rw [append_part_getLsbD, append_part_getLsbD, append_part_getLsbD]
  obtain rfl | ⟨_, _⟩ | ⟨_, _⟩ | rfl | rfl : i = 0 ∨ (1 ≤ i ∧ i < 5) ∨ (5 ≤ i ∧ i < 11) ∨ i = 11 ∨ i = 12 := by omega
  · rfl
  · simp (disch := omega) only [if_neg, if_pos, show 8 + (i - 1) = i + 7 by omega]
  · simp (disch := omega) only [if_neg, if_pos, show 25 + (i - 1 - 4) = i + 20 by omega]
  · simp
  · simp

theorem immJField_getLsbD (w : Word) {i : Nat} (hi : i < 21) :
    (immJField w).getLsbD i =
      if i = 0 then false else if i < 11 then w.getLsbD (i + 20) else if i = 11 then w.getLsbD 20
      else if i < 20 then w.getLsbD i else w.getLsbD 31 := by
  refine (append_zero_getLsbD _ i).trans ?_
  rw [append_part_getLsbD, append_part_getLsbD, append_part_getLsbD]
  obtain rfl | ⟨_, _⟩ | rfl | ⟨_, _⟩ | rfl : i = 0 ∨ (1 ≤ i ∧ i < 11) ∨ i = 11 ∨ (12 ≤ i ∧ i < 20) ∨ i = 20 := by omega
  · rfl
  · simp (disch := omega) only [if_neg, if_pos, show 21 + (i - 1) = i + 20 by omega]
  · simp
  · simp (disch := omega) only [if_neg, if_pos, show 12 + (i - 1 - 10 - 1) = i by omega]
  · simp

theorem extend12_immIField_getLsbD (w : Word) {i : Nat} (hi : i < 32) :
    (extend12 (immIField w)).getLsbD i = if i < 11 then w.getLsbD (i + 20) else w.getLsbD 31 := by
  rw [extend12, signExtend_getLsbD _ hi]
  split
  next low => exact immIField_getLsbD w (by omega)
  next sign => exact immIField_getLsbD w (i := 11) (by decide)

theorem extend12_immSField_getLsbD (w : Word) {i : Nat} (hi : i < 32) :
    (extend12 (immSField w)).getLsbD i =
      if i < 5 then w.getLsbD (i + 7) else if i < 11 then w.getLsbD (i + 20) else w.getLsbD 31 := by
  rw [extend12, signExtend_getLsbD _ hi]
  split
  next low => exact immSField_getLsbD w (by omega)
  next sign =>
    rw [immSField_getLsbD w (by decide)]
    simp (disch := omega) only [if_neg]

theorem extend13_immBField_getLsbD (w : Word) {i : Nat} (hi : i < 32) :
    (extend13 (immBField w)).getLsbD i =
      if i = 0 then false else if i < 5 then w.getLsbD (i + 7) else if i < 11 then w.getLsbD (i + 20)
      else if i = 11 then w.getLsbD 7 else w.getLsbD 31 := by
  rw [extend13, signExtend_getLsbD _ hi]
  split
  next low => exact immBField_getLsbD w (by omega)
  next sign =>
    rw [immBField_getLsbD w (by decide)]
    simp (disch := omega) only [if_neg]

theorem extend21_immJField_getLsbD (w : Word) {i : Nat} (hi : i < 32) :
    (extend21 (immJField w)).getLsbD i =
      if i = 0 then false else if i < 11 then w.getLsbD (i + 20) else if i = 11 then w.getLsbD 20
      else if i < 20 then w.getLsbD i else w.getLsbD 31 := by
  rw [extend21, signExtend_getLsbD _ hi]
  split
  next low => rw [immJField_getLsbD w (by omega), if_pos low]
  next sign =>
    rw [immJField_getLsbD w (by decide)]
    simp (disch := omega) only [if_neg]

theorem upperImm_immUField_getLsbD (w : Word) {i : Nat} (hi : i < 32) :
    (upperImm (immUField w)).getLsbD i = if i < 12 then false else w.getLsbD i := by
  refine BitVec.getLsbD_append.trans ?_
  split
  next low => simp
  next high => simp [immUField, show i - 12 < 20 by omega, show 12 + (i - 12) = i by omega]

/-- Settles O3: the fields of the five formats bit by bit, sign-extended (I, S, B, J) or put above twelve zeros (U). -/
theorem immediatesAreAssembledFromTheirBits : Obligations.ImmediatesAreAssembledFromTheirBits := fun w =>
  ⟨shamtField_toNat w, fun _ hi =>
    ⟨extend12_immIField_getLsbD w hi, extend12_immSField_getLsbD w hi, extend13_immBField_getLsbD w hi,
      extend21_immJField_getLsbD w hi, upperImm_immUField_getLsbD w hi⟩⟩

end Sys2Proof
end

section
/-! The step driver's hold on the register file (40_step_driver.md): what a completed instruction and a completed step
leave in slot 0 and in the registers that are no destination (R95), and what `init` writes (R102). -/

namespace Sys2Proof.Machine

/-! ## After a step (R95) -/

/-- A completed step is the commit of an effect, and every commit zeroes slot 0. -/
theorem step_next_slot0 {s t : State} (h : step s = .next t) : t.regs[0] = 0#32 := by
  obtain ⟨e, m, -, rfl⟩ := step_commits h
  exact committed_slot0 s e m

/-- The register frame of an instruction (10_state.md R23). -/
theorem exec_next_readReg_of_ne_dest {i : Instr} {s t : State} {r : RegIdx} (h : exec i s = .next t)
    (hr : destOf i ≠ some r) : t.readReg r = s.readReg r := by
  obtain ⟨e, m, -, rfl, hdest, -⟩ := exec_next h
  refine readReg_committed_other s e m r fun j v hwr hrj => hr ?_
  rw [← hdest, hwr, hrj, Option.map_some]

/-- Settles O29: a commit zeroes slot 0 whatever was staged there, and an instruction with destination 0 has the frame of
every other register. -/
theorem everyStepZeroesSlot0 : Obligations.EveryStepZeroesSlot0 := by
  refine ⟨fun s t h => ⟨step_next_slot0 h, readReg_zero t⟩, fun i s t hdest h r => ?_⟩
  by_cases hr : r = 0
  · rw [hr, readReg_zero, readReg_zero]
  · refine exec_next_readReg_of_ne_dest h fun hd => hr ?_
    exact Option.some.inj (hd.symm.trans hdest)

/-! ## After `init` (R102) -/

/-- A legal window ends below 2^32 (00_scope.md R9), so its end is a word's number. -/
theorem Config.memEnd_toNat {c : Config} (h : c.wf = true) : (BitVec.ofNat 32 c.memEnd).toNat = c.memEnd := by
  obtain ⟨-, hlt⟩ := (Config.wf_iff c).1 h
  exact Nat.mod_eq_of_lt hlt

theorem initialised_readReg_two (s : State) : s.initialised.readReg 2 = BitVec.ofNat 32 s.cfg.memEnd := by
  rw [readReg_of_ne _ (by decide)]
  simp [writeBack]

theorem initialised_readReg_other (s : State) {r : RegIdx} (h : r ≠ 2) : s.initialised.readReg r = s.readReg r := by
  by_cases hr : r = 0
  · rw [hr, readReg_zero, readReg_zero]
  · have hv : (2 : Nat) ≠ r.val := fun hv => h (Fin.ext hv.symm)
    rw [readReg_of_ne _ hr, readReg_of_ne _ hr]
    simp [writeBack, hv]

/-- `init` writes the same values a second time: they depend on the parameters only. -/
theorem initialised_initialised (s : State) : s.initialised.initialised = s.initialised := by
  simp [State.initialised, writeBack]

/-- Settles O21: `init` answers the initialised state, read field by field; its end of memory is exact under R9. -/
theorem initWritesThePcAndRegister2Only : Obligations.InitWritesThePcAndRegister2Only := by
  intro s legal
  refine ⟨s.initialised, initHart_legal legal, rfl, ?_, fun r hr => initialised_readReg_other s hr, fun _ => rfl, rfl,
    rfl, ?_⟩
  · rw [initialised_readReg_two, Config.memEnd_toNat legal]
    rfl
  · rw [initHart_legal (s := s.initialised) legal, initialised_initialised]

end Sys2Proof.Machine
end

section
/-! I-type (42_i_type.md): the words a mask and a match pick out, and ADDI (R131). -/

namespace Sys2Proof

/-! ## Masked words -/

/-- A field that a mask keeps whole is the same field of the masked word. -/
theorem extractLsb'_eq_of_mask {w mask bits : Word} {lo len : Nat} (h : w &&& mask = bits)
    (hmask : mask.extractLsb' lo len = BitVec.allOnes len) : w.extractLsb' lo len = bits.extractLsb' lo len := by
  rw [← h, BitVec.extractLsb'_and, hmask, BitVec.and_allOnes]

theorem decode_addi {extM : Bool} {w : Word} (hop : opcodeField w = 0x13#7) (h3 : funct3Field w = 0b000#3) :
    decode extM w = .instr (.addi (rdField w) (rs1Field w) (immIField w)) := by
  rw [decode_i hop, h3]; rfl

/-- R131's mask keeps the opcode and funct3, and its match is ADDI's. -/
theorem decode_addi_of_mask (extM : Bool) {w : Word} (h : w &&& 0x0000707F#32 = 0x00000013#32) :
    decode extM w = .instr (.addi (rdField w) (rs1Field w) (immIField w)) :=
  have hop : opcodeField w = 0x13#7 := extractLsb'_eq_of_mask h (by decide)
  have h3 : funct3Field w = 0b000#3 := extractLsb'_eq_of_mask h (by decide)
  decode_addi hop h3

namespace Machine

/-! ## The effect of ADDI (R131) -/

theorem exec_addi (rd rs1 : RegIdx) (imm : BitVec 12) (s : State) :
    exec (.addi rd rs1 imm) s = writeResult addWord (regImm s rs1 imm) rd s := rfl

theorem exec_addi_spec (rd rs1 : RegIdx) (imm : BitVec 12) {s : State} (legal : s.cfg.wf = true) :
    ∃ t, exec (.addi rd rs1 imm) s = .next t ∧ RegWritten s t rd (s.readReg rs1 + imm.signExtend 32) (s.pc + 4#32) := by
  rw [exec_addi]
  exact writeResult_spec addWord (regImm s rs1 imm) rd s legal

/-- Settles O37: the masked word fixes the opcode and funct3; the sum is the register-writing template's result. -/
theorem addiEncodingAndSum : Obligations.AddiEncodingAndSum :=
  ⟨fun extM _ h => decode_addi_of_mask extM h, fun rd rs1 imm _ legal => exec_addi_spec rd rs1 imm legal⟩

end Machine
end Sys2Proof
end

section
/-! The upper immediates (46_upper_imm.md): the words that are LUI and AUIPC, and what the two instructions write (R181,
R182). -/

namespace Sys2Proof

/-! ## The encodings -/

/-- R181's mask keeps the opcode, and its match is LUI's. -/
theorem decode_lui_of_mask (extM : Bool) {w : Word} (h : w &&& 0x0000007F#32 = 0x00000037#32) :
    decode extM w = .instr (.lui (rdField w) (immUField w)) :=
  have hop : opcodeField w = 0x37#7 := extractLsb'_eq_of_mask h (by decide)
  decode_lui hop

/-- R182's mask keeps the opcode, and its match is AUIPC's. -/
theorem decode_auipc_of_mask (extM : Bool) {w : Word} (h : w &&& 0x0000007F#32 = 0x00000017#32) :
    decode extM w = .instr (.auipc (rdField w) (immUField w)) :=
  have hop : opcodeField w = 0x17#7 := extractLsb'_eq_of_mask h (by decide)
  decode_auipc hop

/-! ## The immediate as a number (R73) -/

/-- Twelve zeros below the 20 bits multiply them by 2^12; the product is still a word's number. -/
theorem upperImm_toNat (imm : BitVec 20) : (upperImm imm).toNat = imm.toNat * 2 ^ 12 := by
  rw [upperImm, BitVec.toNat_append, BitVec.toNat_ofNat, Nat.zero_mod, Nat.or_zero, Nat.shiftLeft_eq]

theorem upperImm_eq_ofNat (imm : BitVec 20) : upperImm imm = BitVec.ofNat 32 (imm.toNat * 2 ^ 12) := by
  rw [← upperImm_toNat, BitVec.ofNat_toNat, BitVec.setWidth_eq]

namespace Machine

/-! ## The effects (R181, R182) -/

theorem exec_lui (rd : RegIdx) (imm : BitVec 20) (s : State) :
    exec (.lui rd imm) s = commit (writeEffect s rd (upperImm imm)) s := rfl

theorem exec_auipc (rd : RegIdx) (imm : BitVec 20) (s : State) :
    exec (.auipc rd imm) s = commit (writeEffect s rd (s.pc + upperImm imm)) s := rfl

theorem exec_lui_spec (rd : RegIdx) (imm : BitVec 20) {s : State} (legal : s.cfg.wf = true) :
    ∃ t, exec (.lui rd imm) s = .next t ∧
      RegWritten s t rd (BitVec.ofNat 32 (imm.toNat * 2 ^ 12)) (s.pc + 4#32) := by
  rw [exec_lui, upperImm_eq_ofNat]
  exact commit_writeEffect_spec s rd _ legal

theorem exec_auipc_spec (rd : RegIdx) (imm : BitVec 20) {s : State} (legal : s.cfg.wf = true) :
    ∃ t, exec (.auipc rd imm) s = .next t ∧
      RegWritten s t rd (s.pc + BitVec.ofNat 32 (imm.toNat * 2 ^ 12)) (s.pc + 4#32) := by
  rw [exec_auipc, upperImm_eq_ofNat]
  exact commit_writeEffect_spec s rd _ legal

/-- Settles O50: the masked word fixes the opcode; the committed register write is the immediate above twelve zeros. -/
theorem luiEncodingAndValue : Obligations.LuiEncodingAndValue :=
  ⟨fun extM _ h => decode_lui_of_mask extM h, fun rd imm _ legal => exec_lui_spec rd imm legal⟩

/-- Settles O51: the masked word fixes the opcode; the committed register write adds the immediate to the pc before the
step. -/
theorem auipcEncodingAndValue : Obligations.AuipcEncodingAndValue :=
  ⟨fun extM _ h => decode_auipc_of_mask extM h, fun rd imm _ legal => exec_auipc_spec rd imm legal⟩

end Machine
end Sys2Proof
end

section
/-! The jumps (47_jumps.md): the words that are JAL, and where it goes and what it links (R186). -/

namespace Sys2Proof

/-- R186's mask keeps the opcode, and its match is JAL's. -/
theorem decode_jal_of_mask (extM : Bool) {w : Word} (h : w &&& 0x0000007F#32 = 0x0000006F#32) :
    decode extM w = .instr (.jal (rdField w) (immJField w)) :=
  have hop : opcodeField w = 0x6F#7 := extractLsb'_eq_of_mask h (by decide)
  decode_jal hop

namespace Machine

/-! ## The effect of JAL (R186) -/

theorem exec_jal (rd : RegIdx) (imm : BitVec 21) (s : State) :
    exec (.jal rd imm) s = jumpTo (s.pc + imm.signExtend 32) rd s := rfl

theorem exec_jal_spec (rd : RegIdx) (imm : BitVec 21) {s : State} (legal : s.cfg.wf = true) :
    ∃ t, exec (.jal rd imm) s = .next t ∧ RegWritten s t rd (s.pc + 4#32) (s.pc + imm.signExtend 32) := by
  rw [exec_jal]
  exact jumpTo_spec (s.pc + imm.signExtend 32) rd s legal

/-- Settles O52: the masked word fixes the opcode; the jump template links the return address and takes the target computed
from the pc before the step. -/
theorem jalEncodingLinkAndTarget : Obligations.JalEncodingLinkAndTarget :=
  ⟨fun extM _ h => decode_jal_of_mask extM h, fun rd imm _ legal => exec_jal_spec rd imm legal⟩

end Machine
end Sys2Proof
end

section
/-! Undefined encodings (48_fence_and_undefined.md): the words whose bits 1:0 are not 11, and the step at an undefined
encoding (R192). -/

namespace Sys2Proof

/-! ## Words whose bits 1:0 are not 11 -/

/-- Bits 1:0 of every opcode of R81 are 11. -/
theorem toNat_mod_four_of_mem_knownOpcodes : ∀ op ∈ knownOpcodes, op.toNat % 4 = 3 := by decide

theorem opcodeField_toNat_mod_four (w : Word) : (opcodeField w).toNat % 4 = w.toNat % 4 := by
  rw [opcodeField_toNat, Nat.mod_mod_of_dvd w.toNat (show 4 ∣ 2 ^ 7 by decide)]

theorem decode_of_mod_four_ne_three (extM : Bool) {w : Word} (h : w.toNat % 4 ≠ 3) :
    decode extM w = .undefined .opcode := by
  refine decode_otherOpcode fun hop => h ?_
  rw [← opcodeField_toNat_mod_four]
  exact toNat_mod_four_of_mem_knownOpcodes _ hop

namespace Machine

/-! ## The step at an undefined encoding (R192) -/

theorem dispatch_undefined (why : UndefinedReason) (s : State) :
    dispatch (.undefined why) s = commit (advanceEffect s) s := rfl

/-- A fetch inside the window gives the four bytes at the pc, the highest address in the top bits (20_memory.md R49). -/
theorem fetchWord_of_holds {s : State} (h : s.Holds s.pc 4) :
    fetchWord s = .ok (s.mem.read (s.pc.toNat + 3) ++ s.mem.read (s.pc.toNat + 2) ++ s.mem.read (s.pc.toNat + 1) ++
      s.mem.read s.pc.toNat) :=
  fetchWord_ok.2 ⟨h, (Memory.readLE_four s.mem s.pc.toNat).symm⟩

theorem step_undefined_spec {s : State} {w : Word} {why : UndefinedReason} (running : s.Running)
    (hfetch : fetchWord s = .ok w) (hdec : decode s.cfg.extM w = .undefined why) :
    ∃ t, step s = .next t ∧ PcMoved s t (s.pc + 4#32) := by
  rw [step_of_fetch running hfetch, hdec, dispatch_undefined]
  obtain ⟨legal, -⟩ := running
  exact commit_advance_spec s legal

/-- Settles O17: the step commits the effect that only advances the pc; bits 1:0 of a word are those of its opcode, and the
ten known opcodes all end in 11. -/
theorem undefinedWordOnlyAdvancesThePc : Obligations.UndefinedWordOnlyAdvancesThePc :=
  ⟨fun _ _ running holds hdec => step_undefined_spec running (fetchWord_of_holds holds) hdec,
    fun extM _ h => decode_of_mod_four_ne_three extM h⟩

end Machine
end Sys2Proof
end

section
/-! Decoding the encoding (30_encoding.md sections 3 and 4): the per-instruction lemmas of Laws/PerInstr.lean, put together
over the constructors of Instr. -/

namespace Sys2Proof.Laws.EncodeDecode

/-- Every well-formed instruction is what its word decodes to. -/
theorem statement : ∀ i : Instr, Statement i
  | .add rd rs1 rs2 => add rd rs1 rs2
  | .sub rd rs1 rs2 => sub rd rs1 rs2
  | .sll rd rs1 rs2 => sll rd rs1 rs2
  | .slt rd rs1 rs2 => slt rd rs1 rs2
  | .sltu rd rs1 rs2 => sltu rd rs1 rs2
  | .xor rd rs1 rs2 => xor rd rs1 rs2
  | .srl rd rs1 rs2 => srl rd rs1 rs2
  | .sra rd rs1 rs2 => sra rd rs1 rs2
  | .or rd rs1 rs2 => or rd rs1 rs2
  | .and rd rs1 rs2 => and rd rs1 rs2
  | .addi rd rs1 imm => addi rd rs1 imm
  | .slti rd rs1 imm => slti rd rs1 imm
  | .sltiu rd rs1 imm => sltiu rd rs1 imm
  | .xori rd rs1 imm => xori rd rs1 imm
  | .ori rd rs1 imm => ori rd rs1 imm
  | .andi rd rs1 imm => andi rd rs1 imm
  | .slli rd rs1 shamt => slli rd rs1 shamt
  | .srli rd rs1 shamt => srli rd rs1 shamt
  | .srai rd rs1 shamt => srai rd rs1 shamt
  | .lb rd rs1 imm => lb rd rs1 imm
  | .lh rd rs1 imm => lh rd rs1 imm
  | .lw rd rs1 imm => lw rd rs1 imm
  | .lbu rd rs1 imm => lbu rd rs1 imm
  | .lhu rd rs1 imm => lhu rd rs1 imm
  | .sb rs1 rs2 imm => sb rs1 rs2 imm
  | .sh rs1 rs2 imm => sh rs1 rs2 imm
  | .sw rs1 rs2 imm => sw rs1 rs2 imm
  | .beq rs1 rs2 imm => beq rs1 rs2 imm
  | .bne rs1 rs2 imm => bne rs1 rs2 imm
  | .blt rs1 rs2 imm => blt rs1 rs2 imm
  | .bge rs1 rs2 imm => bge rs1 rs2 imm
  | .bltu rs1 rs2 imm => bltu rs1 rs2 imm
  | .bgeu rs1 rs2 imm => bgeu rs1 rs2 imm
  | .lui rd imm => lui rd imm
  | .auipc rd imm => auipc rd imm
  | .jal rd imm => jal rd imm
  | .jalr rd rs1 imm => jalr rd rs1 imm
  | .fence => fence
  | .mul rd rs1 rs2 => mul rd rs1 rs2
  | .mulh rd rs1 rs2 => mulh rd rs1 rs2
  | .mulhsu rd rs1 rs2 => mulhsu rd rs1 rs2
  | .mulhu rd rs1 rs2 => mulhu rd rs1 rs2
  | .div rd rs1 rs2 => div rd rs1 rs2
  | .divu rd rs1 rs2 => divu rd rs1 rs2
  | .rem rd rs1 rs2 => rem rd rs1 rs2
  | .remu rd rs1 rs2 => remu rd rs1 rs2

/-- Settles O7: the one lemma per constructor, each from the lemma of its format. -/
theorem decodeOfEncodeIsTheInstruction : Obligations.DecodeOfEncodeIsTheInstruction :=
  fun extM i hwf => statement i extM hwf

end Sys2Proof.Laws.EncodeDecode
end

section
/-! What every step keeps (10_state.md section 6, 40_step_driver.md section 1), and what reset starts with (10_state.md
section 7). -/

namespace Sys2Proof.Machine

/-- The commit of an effect whose store went through the accessor keeps the invariant. -/
theorem committed_inv {s : State} {e : Effect} {m : Memory} (inv : s.Inv) (hm : storeEffect e.st s = .ok m) :
    (s.committed e m).Inv := by
  obtain ⟨legal, canonical, inside, -, unmarked⟩ := inv
  obtain ⟨canonical', inside'⟩ := storeEffect_keeps hm canonical inside
  exact ⟨legal, canonical', inside', committed_slot0 s e m, unmarked⟩

/-- Settles O25: every next state of a step is such a commit. -/
theorem stepKeepsTheInvariant : Obligations.StepKeepsTheInvariant := by
  intro s t inv h
  obtain ⟨e, m, hm, rfl⟩ := step_commits h
  exact committed_inv inv hm

theorem resetOf_inv (c : Config) (legal : c.wf = true) : (State.resetOf c legal).Inv := by
  have slot0 : (State.resetOf c legal).regs[0] = 0#32 := by simp
  exact ⟨legal, Memory.wf_empty, rfl, slot0, rfl⟩

/-- Settles O26: memory is empty after reset, and register 2 is the only one that is not zero. -/
theorem resetHasTheInvariant : Obligations.ResetHasTheInvariant :=
  ⟨resetOf_inv, resetOf_inv Config.reference (by decide)⟩

/-- Settles O22: the fields of the reset state; the end of a legal memory is a word's number. -/
theorem resetHoldsTheStatedValues : Obligations.ResetHoldsTheStatedValues := by
  intro c legal
  refine ⟨rfl, rfl, ?_, rfl, rfl⟩
  have end2 : (State.resetOf c legal).readReg 2 = BitVec.ofNat 32 c.memEnd := by
    rw [readReg_of_ne _ (by decide)]
    simp
  rw [end2, Config.memEnd_toNat legal]
  rfl

/-- Settles O28: a step that goes on is made in a running state, and a commit writes neither parameters nor mark. -/
theorem stepKeepsParametersAndMark : Obligations.StepKeepsParametersAndMark := by
  intro s t h
  obtain ⟨-, ⟨-, unmarked⟩, -⟩ := step_next h
  obtain ⟨e, m, -, rfl⟩ := step_commits h
  exact ⟨rfl, unmarked, unmarked⟩

/-! ## Frames of an instruction -/

/-- Settles O31: the register frame. -/
theorem instructionsWriteOnlyTheirDestination : Obligations.InstructionsWriteOnlyTheirDestination :=
  fun _ _ _ h _ hr => exec_next_readReg_of_ne_dest h hr

/-- The memory a store effect leaves reads as before outside the bytes stored (20_memory.md R45). -/
theorem storeEffect_read_outside {st : Option (Word × AccessWidth × Word)} {s : State} {m : Memory} {a : Nat}
    (hm : storeEffect st s = .ok m)
    (outside : ∀ ea w v, st = some (ea, w, v) → a < ea.toNat ∨ ea.toNat + w.bytes ≤ a) : m.read a = s.mem.read a := by
  rcases st with _ | ⟨ea, w, v⟩
  · cases hm; rfl
  · obtain ⟨-, rfl⟩ := memWrite_ok.1 hm
    exact Memory.read_writeLE_outside _ _ _ _ _ (outside ea w v rfl)

/-- Settles O32: the store of an instruction's effect is the store `accessOf` names. -/
theorem onlyStoresChangeMemory : Obligations.OnlyStoresChangeMemory := by
  intro i s t h a outside
  obtain ⟨e, m, hm, rfl, -, hst⟩ := exec_next h
  exact storeEffect_read_outside hm fun ea w v he => outside ea w (hst ea w v he)

/-! ## Where the pc goes (40_step_driver.md R96, R97) -/

/-- The target of an instruction that may lead elsewhere than to pc + 4. -/
def redirectOf (s : State) : Instr → Option Word
  | .beq _ _ imm | .bne _ _ imm | .blt _ _ imm | .bge _ _ imm | .bltu _ _ imm | .bgeu _ _ imm => some (branchTarget s imm)
  | .jal _ imm => some (jalTarget s imm)
  | .jalr _ rs1 imm => some (jalrTarget s rs1 imm)
  | _ => none

theorem commit_next_pc {e : Effect} {s t : State} (h : commit e s = .next t) : t.pc = e.next := by
  obtain ⟨-, m, -, rfl⟩ := commit_next h
  rfl

theorem branchOn_next_pc {cond : Word → Word → Bool} {rs1 rs2 : RegIdx} {imm : BitVec 13} {s t : State}
    (h : branchOn cond rs1 rs2 imm s = .next t) : t.pc = s.pc + 4#32 ∨ some (branchTarget s imm) = some t.pc := by
  have hpc := commit_next_pc h
  dsimp only at hpc
  split at hpc
  next taken => exact .inr (congrArg some hpc.symm)
  next notTaken => exact .inl hpc

theorem writeResult_next_pc {op : Word → Word → Word} {p : Word × Word} {rd : RegIdx} {s t : State}
    (h : writeResult op p rd s = .next t) : t.pc = s.pc + 4#32 := commit_next_pc h

theorem storeFrom_next_pc {w : AccessWidth} {rs1 rs2 : RegIdx} {imm : BitVec 12} {s t : State}
    (h : storeFrom w rs1 rs2 imm s = .next t) : t.pc = s.pc + 4#32 := commit_next_pc h

theorem jumpTo_next_pc {target : Word} {rd : RegIdx} {s t : State} (h : jumpTo target rd s = .next t) :
    t.pc = target := commit_next_pc h

theorem loadInto_next_pc {w : AccessWidth} {extend : Word → Word} {rd rs1 : RegIdx} {imm : BitVec 12} {s t : State}
    (h : loadInto w extend rd rs1 imm s = .next t) : t.pc = s.pc + 4#32 := by
  obtain ⟨-, h⟩ := onLegalConfig_next h
  split at h
  next f _ => cases h
  next v _ => exact commit_next_pc h

/-- An instruction that goes on leads to pc + 4 or to its target. -/
theorem exec_next_pc {i : Instr} {s t : State} (h : exec i s = .next t) :
    t.pc = s.pc + 4#32 ∨ redirectOf s i = some t.pc := by
  cases i with
  | beq | bne | blt | bge | bltu | bgeu => exact branchOn_next_pc h
  | jal | jalr => exact .inr (congrArg some (jumpTo_next_pc h).symm)
  | lb | lh | lw | lbu | lhu => exact .inl (loadInto_next_pc h)
  | sb | sh | sw => exact .inl (storeFrom_next_pc h)
  | lui rd imm | auipc rd imm => exact .inl (commit_next_pc (e := writeEffect s rd _) h)
  | fence => exact .inl (commit_next_pc (e := advanceEffect s) h)
  | _ => exact .inl (writeResult_next_pc h)

theorem mnemonic_of_redirectOf {i : Instr} {s : State} {target : Word} (h : redirectOf s i = some target) :
    i.mnemonic ∈ ["BEQ", "BNE", "BLT", "BGE", "BLTU", "BGEU", "JAL", "JALR"] := by
  cases i with
  | beq | bne | blt | bge | bltu | bgeu | jal | jalr => simp [Instr.mnemonic]
  | _ => cases h

/-- Settles O33: the instructions with a target are the eight named. -/
theorem onlyBranchesAndJumpsRedirectThePc : Obligations.OnlyBranchesAndJumpsRedirectThePc := by
  intro i s t h hpc
  obtain advanced | redirected := exec_next_pc h
  · exact absurd advanced hpc
  · exact mnemonic_of_redirectOf redirected

end Sys2Proof.Machine
end

section
/-! What the decoder answers (30_encoding.md sections 3 to 5): the operands and the well-formedness of a decoded
instruction, and which words are no instruction. -/

namespace Sys2Proof

/-! ## A word that decodes to an instruction (R81, R83) -/

/-- What a decoded instruction is, by the unit its opcode selects (R81). -/
inductive UnitAnswer (extM : Bool) (w : Word) : Instr → Prop
  | mulDiv (hasUnit : extM = true) :
      UnitAnswer extM w (mulDivOf (funct3Field w) (rdField w) (rs1Field w) (rs2Field w))
  | register : UnitAnswer extM w (rTypeOf (funct3Field w) (altBit w) (rdField w) (rs1Field w) (rs2Field w))
  | immediate : UnitAnswer extM w
      (iTypeOf (funct3Field w) (altBit w) (rdField w) (rs1Field w) (immIField w) (shamtField w))
  | load {i : Instr} (h : loadOf (funct3Field w) (rdField w) (rs1Field w) (immIField w) = .instr i) :
      UnitAnswer extM w i
  | store {i : Instr} (h : storeOf (funct3Field w) (rs1Field w) (rs2Field w) (immSField w) = .instr i) :
      UnitAnswer extM w i
  | branch {i : Instr} (h : branchOf (funct3Field w) (rs1Field w) (rs2Field w) (immBField w) = .instr i) :
      UnitAnswer extM w i
  | lui : UnitAnswer extM w (.lui (rdField w) (immUField w))
  | auipc : UnitAnswer extM w (.auipc (rdField w) (immUField w))
  | jal : UnitAnswer extM w (.jal (rdField w) (immJField w))
  | jalr : UnitAnswer extM w (.jalr (rdField w) (rs1Field w) (immIField w))
  | fence : UnitAnswer extM w .fence

/-- Opcode 0x33 is the M unit's where the block has one and funct7 selects it, else the R unit's. -/
theorem decode_op33_instr {extM : Bool} {w : Word} {i : Instr} (h : decode extM w = .instr i)
    (hop : opcodeField w = 0x33#7) : UnitAnswer extM w i := by
  by_cases h7 : extM = true ∧ funct7Field w = 0b0000001#7
  · obtain ⟨rfl, h7⟩ := h7
    cases (decode_mulDiv hop h7).symm.trans h
    exact .mulDiv rfl
  · cases (decode_r hop h7).symm.trans h
    exact .register

/-- The inversion of `decode`: every instruction it answers is the answer of a unit. -/
theorem decode_instr {extM : Bool} {w : Word} {i : Instr} (h : decode extM w = .instr i) : UnitAnswer extM w i := by
  refine by_opcode (opcodeField w) (decode_op33_instr h) ?i (fun hop => .load ((decode_load hop).symm.trans h))
    (fun hop => .store ((decode_store hop).symm.trans h)) (fun hop => .branch ((decode_branch hop).symm.trans h))
    ?lui ?auipc ?jal ?jalr ?fence ?other <;> intro hop
  case i => cases (decode_i hop).symm.trans h; exact .immediate
  case lui => cases (decode_lui hop).symm.trans h; exact .lui
  case auipc => cases (decode_auipc hop).symm.trans h; exact .auipc
  case jal => cases (decode_jal hop).symm.trans h; exact .jal
  case jalr => cases (decode_jalr hop).symm.trans h; exact .jalr
  case fence => cases (decode_fence hop).symm.trans h; exact .fence
  case other => cases (decode_otherOpcode hop).symm.trans h

/-! ## Its operands (R75 to R80) -/

theorem mulDivOf_takesFieldsOf (w : Word) (f3 : BitVec 3) :
    Machine.takesFieldsOf w (mulDivOf f3 (rdField w) (rs1Field w) (rs2Field w)) := by
  unfold mulDivOf
  split <;> exact ⟨rfl, rfl, rfl⟩

theorem rTypeOf_takesFieldsOf (w : Word) (f3 : BitVec 3) (alt : Bool) :
    Machine.takesFieldsOf w (rTypeOf f3 alt (rdField w) (rs1Field w) (rs2Field w)) := by
  unfold rTypeOf
  cases alt <;> split <;> exact ⟨rfl, rfl, rfl⟩

theorem iTypeOf_takesFieldsOf (w : Word) (f3 : BitVec 3) (alt : Bool) :
    Machine.takesFieldsOf w (iTypeOf f3 alt (rdField w) (rs1Field w) (immIField w) (shamtField w)) := by
  unfold iTypeOf
  cases alt <;> split <;> exact ⟨rfl, rfl, rfl⟩

theorem loadOf_takesFieldsOf {w : Word} {f3 : BitVec 3} {i : Instr}
    (h : loadOf f3 (rdField w) (rs1Field w) (immIField w) = .instr i) : Machine.takesFieldsOf w i := by
  unfold loadOf at h
  split at h <;> cases h <;> exact ⟨rfl, rfl, rfl⟩

theorem storeOf_takesFieldsOf {w : Word} {f3 : BitVec 3} {i : Instr}
    (h : storeOf f3 (rs1Field w) (rs2Field w) (immSField w) = .instr i) : Machine.takesFieldsOf w i := by
  unfold storeOf at h
  split at h <;> cases h <;> exact ⟨rfl, rfl, rfl⟩

theorem branchOf_takesFieldsOf {w : Word} {f3 : BitVec 3} {i : Instr}
    (h : branchOf f3 (rs1Field w) (rs2Field w) (immBField w) = .instr i) : Machine.takesFieldsOf w i := by
  unfold branchOf at h
  split at h <;> cases h <;> exact ⟨rfl, rfl, rfl⟩

/-- Settles O5: each unit takes its operands from the fields its format names, whichever row funct3 picks. -/
theorem decodedOperandsAreTheFieldsOfTheWord : Obligations.DecodedOperandsAreTheFieldsOfTheWord := by
  intro extM w i h
  cases decode_instr h with
  | mulDiv => exact mulDivOf_takesFieldsOf w _
  | register => exact rTypeOf_takesFieldsOf w _ _
  | immediate => exact iTypeOf_takesFieldsOf w _ _
  | load h => exact loadOf_takesFieldsOf h
  | store h => exact storeOf_takesFieldsOf h
  | branch h => exact branchOf_takesFieldsOf h
  | lui | auipc | jal => exact ⟨rfl, rfl⟩
  | jalr => exact ⟨rfl, rfl, rfl⟩
  | fence => trivial

/-! ## Its well-formedness (R71, R72, 49_muldiv.md R200) -/

theorem immBField_even (w : Word) : evenOffset (immBField w) = true := by
  rw [evenOffset, immBField_getLsbD w (by decide)]
  rfl

theorem immJField_even (w : Word) : evenOffset (immJField w) = true := by
  rw [evenOffset, immJField_getLsbD w (by decide)]
  rfl

theorem mulDivOf_wf (f3 : BitVec 3) (rd rs1 rs2 : RegIdx) : (mulDivOf f3 rd rs1 rs2).wf true = true := by
  unfold mulDivOf
  split <;> rfl

theorem rTypeOf_wf (extM : Bool) (f3 : BitVec 3) (alt : Bool) (rd rs1 rs2 : RegIdx) :
    (rTypeOf f3 alt rd rs1 rs2).wf extM = true := by
  unfold rTypeOf
  cases alt <;> split <;> rfl

theorem iTypeOf_wf (extM : Bool) (f3 : BitVec 3) (alt : Bool) (rd rs1 : RegIdx) (imm : BitVec 12) (shamt : BitVec 5) :
    (iTypeOf f3 alt rd rs1 imm shamt).wf extM = true := by
  unfold iTypeOf
  cases alt <;> split <;> rfl

theorem loadOf_wf (extM : Bool) {f3 : BitVec 3} {rd rs1 : RegIdx} {imm : BitVec 12} {i : Instr}
    (h : loadOf f3 rd rs1 imm = .instr i) : i.wf extM = true := by
  unfold loadOf at h
  split at h <;> cases h <;> rfl

theorem storeOf_wf (extM : Bool) {f3 : BitVec 3} {rs1 rs2 : RegIdx} {imm : BitVec 12} {i : Instr}
    (h : storeOf f3 rs1 rs2 imm = .instr i) : i.wf extM = true := by
  unfold storeOf at h
  split at h <;> cases h <;> rfl

theorem branchOf_wf (extM : Bool) {f3 : BitVec 3} {rs1 rs2 : RegIdx} {imm : BitVec 13} {i : Instr}
    (even : evenOffset imm = true) (h : branchOf f3 rs1 rs2 imm = .instr i) : i.wf extM = true := by
  unfold branchOf at h
  split at h <;> cases h <;> exact even

theorem decode_wf {extM : Bool} {w : Word} {i : Instr} (h : decode extM w = .instr i) : i.wf extM = true := by
  cases decode_instr h with
  | mulDiv hasUnit => rw [hasUnit]; exact mulDivOf_wf _ _ _ _
  | register => exact rTypeOf_wf extM _ _ _ _ _
  | immediate => exact iTypeOf_wf extM _ _ _ _ _ _
  | load h => exact loadOf_wf extM h
  | store h => exact storeOf_wf extM h
  | branch h => exact branchOf_wf extM (immBField_even w) h
  | jal => exact immJField_even w
  | lui | auipc | jalr | fence => rfl

/-- Settles O6: only branch and JAL offsets have a bit to check, and the fields end in the 0 the hardware appends. -/
theorem decodedInstructionsAreWellFormed : Obligations.DecodedInstructionsAreWellFormed :=
  fun _ _ _ h => decode_wf h

/-! ## A word that is no instruction (R85) -/

/-- A proof by the value of funct3. -/
theorem funct3_cases (f3 : BitVec 3) : f3 = 0b000#3 ∨ f3 = 0b001#3 ∨ f3 = 0b010#3 ∨ f3 = 0b011#3 ∨ f3 = 0b100#3 ∨
    f3 = 0b101#3 ∨ f3 = 0b110#3 ∨ f3 = 0b111#3 := by
  revert f3; decide

theorem loadOf_undefined_iff (f3 : BitVec 3) (rd rs1 : RegIdx) (imm : BitVec 12) :
    (∃ why, loadOf f3 rd rs1 imm = .undefined why) ↔ f3.toNat ∈ [3, 6, 7] := by
  obtain rfl | rfl | rfl | rfl | rfl | rfl | rfl | rfl := funct3_cases f3 <;> simp [loadOf]

theorem storeOf_undefined_iff (f3 : BitVec 3) (rs1 rs2 : RegIdx) (imm : BitVec 12) :
    (∃ why, storeOf f3 rs1 rs2 imm = .undefined why) ↔ f3.toNat ∈ [3, 4, 5, 6, 7] := by
  obtain rfl | rfl | rfl | rfl | rfl | rfl | rfl | rfl := funct3_cases f3 <;> simp [storeOf]

theorem branchOf_undefined_iff (f3 : BitVec 3) (rs1 rs2 : RegIdx) (imm : BitVec 13) :
    (∃ why, branchOf f3 rs1 rs2 imm = .undefined why) ↔ f3.toNat ∈ [2, 3] := by
  obtain rfl | rfl | rfl | rfl | rfl | rfl | rfl | rfl := funct3_cases f3 <;> simp [branchOf]

/-- The ten opcodes of R81 as numbers. -/
theorem mem_knownOpcodes_iff (op : BitVec 7) :
    op ∈ knownOpcodes ↔ op.toNat ∈ [0x33, 0x13, 0x03, 0x23, 0x63, 0x37, 0x17, 0x6F, 0x67, 0x0F] := by
  simp [knownOpcodes, ← BitVec.toNat_inj]

/-- Settles O8: by the opcode; loads, stores and branches are left with their funct3. -/
theorem undefinedWordsAreExactlyTheListedOnes : Obligations.UndefinedWordsAreExactlyTheListedOnes := by
  intro extM w
  rw [← opcodeField_toNat, ← funct3Field_toNat, ← mem_knownOpcodes_iff]
  refine by_opcode (opcodeField w) ?r ?i ?l ?s ?b ?lui ?auipc ?jal ?jalr ?fence ?other <;> intro hop
  case l =>
    rw [decode_load hop, loadOf_undefined_iff, hop]
    simp [knownOpcodes]
  case s =>
    rw [decode_store hop, storeOf_undefined_iff, hop]
    simp [knownOpcodes]
  case b =>
    rw [decode_branch hop, branchOf_undefined_iff, hop]
    simp [knownOpcodes]
  case other =>
    rw [decode_otherOpcode hop]
    simp [hop]
  case r =>
    by_cases h7 : extM = true ∧ funct7Field w = 0b0000001#7
    · obtain ⟨rfl, h7⟩ := h7
      simp [decode_mulDiv hop h7, hop, knownOpcodes]
    · simp [decode_r hop h7, hop, knownOpcodes]
  case i => simp [decode_i hop, hop, knownOpcodes]
  case lui => simp [decode_lui hop, hop, knownOpcodes]
  case auipc => simp [decode_auipc hop, hop, knownOpcodes]
  case jal => simp [decode_jal hop, hop, knownOpcodes]
  case jalr => simp [decode_jalr hop, hop, knownOpcodes]
  case fence => simp [decode_fence hop, hop, knownOpcodes]

/-! ## The spec's own examples -/

/-- Settles O1: the decoder run on each word. -/
theorem specWordsDecodeAsTheSpecSays : Obligations.SpecWordsDecodeAsTheSpecSays := by
  unfold Obligations.SpecWordsDecodeAsTheSpecSays
  decide

end Sys2Proof
end

section
/-! The opcode table (spec/opcode_table.json): the first row that covers a word is the decoder's answer, and the rows of the
base set and of the multiply/divide unit do not overlap among themselves. -/

namespace Sys2Proof

/-! ## The masked word, in terms of its fields -/

theorem and_7F (w : Word) : w &&& 0x0000007F#32 = 0#25 ++ opcodeField w := by
  apply BitVec.eq_of_getLsbD_eq
  intro i hi
  simp only [opcodeField, BitVec.getLsbD_append, BitVec.getLsbD_extractLsb', BitVec.getLsbD_and]
  interval_cases i <;> simp

theorem and_707F (w : Word) : w &&& 0x0000707F#32 = 0#17 ++ funct3Field w ++ 0#5 ++ opcodeField w := by
  apply BitVec.eq_of_getLsbD_eq
  intro i hi
  simp only [opcodeField, funct3Field, BitVec.getLsbD_append, BitVec.getLsbD_extractLsb', BitVec.getLsbD_and]
  interval_cases i <;> simp

theorem and_4000707F (w : Word) :
    w &&& 0x4000707F#32 = 0#1 ++ BitVec.ofBool (altBit w) ++ 0#15 ++ funct3Field w ++ 0#5 ++ opcodeField w := by
  apply BitVec.eq_of_getLsbD_eq
  intro i hi
  simp only [opcodeField, funct3Field, altBit, BitVec.getLsbD_append, BitVec.getLsbD_extractLsb', BitVec.getLsbD_and]
  interval_cases i <;> simp

theorem and_FE00707F (w : Word) :
    w &&& 0xFE00707F#32 = funct7Field w ++ 0#10 ++ funct3Field w ++ 0#5 ++ opcodeField w := by
  apply BitVec.eq_of_getLsbD_eq
  intro i hi
  simp only [opcodeField, funct3Field, funct7Field, BitVec.getLsbD_append, BitVec.getLsbD_extractLsb', BitVec.getLsbD_and]
  interval_cases i <;> simp

/-! ## Overlap -/

/-- Rows that both cover a word agree on the bits both masks keep. -/
theorem covers_agree {extM : Bool} {w : Word} {r₁ r₂ : OpcodeRow} (h₁ : r₁.covers extM w = true)
    (h₂ : r₂.covers extM w = true) : r₁.bits &&& r₂.mask = r₂.bits &&& r₁.mask := by
  simp only [OpcodeRow.covers, Bool.and_eq_true, beq_iff_eq] at h₁ h₂
  obtain ⟨-, h₁⟩ := h₁
  obtain ⟨-, h₂⟩ := h₂
  rw [← h₁, ← h₂, BitVec.and_assoc, BitVec.and_assoc, BitVec.and_comm r₁.mask]

theorem baseRows_eq_of_agree : ∀ r₁ ∈ rRows ++ iRows ++ memRows ++ flowRows, ∀ r₂ ∈ rRows ++ iRows ++ memRows ++ flowRows,
    r₁.bits &&& r₂.mask = r₂.bits &&& r₁.mask → r₁ = r₂ := by
  decide

theorem mulDivRows_eq_of_agree : ∀ r₁ ∈ mulDivRows, ∀ r₂ ∈ mulDivRows,
    r₁.bits &&& r₂.mask = r₂.bits &&& r₁.mask → r₁ = r₂ := by
  decide

/-- Settles O9: two rows that cover one word agree where both masks look, and the table has no two such rows. -/
theorem baseRowsAndMulDivRowsEachDoNotOverlap : Obligations.BaseRowsAndMulDivRowsEachDoNotOverlap :=
  ⟨fun _ r₁ m₁ r₂ m₂ h₁ h₂ => baseRows_eq_of_agree r₁ m₁ r₂ m₂ (covers_agree h₁ h₂),
    fun _ r₁ m₁ r₂ m₂ h₁ h₂ => mulDivRows_eq_of_agree r₁ m₁ r₂ m₂ (covers_agree h₁ h₂)⟩

/-! ## The search through the table, opcode by opcode -/

/-- The rows of one opcode, in the table's order. -/
def rowsOf (op : BitVec 7) : List OpcodeRow := opcodeTable.filter (fun r => r.bits.extractLsb' 0 7 == op)

/-- What a search through rows for a word finds, by its mnemonic. -/
def findMnemonic? (extM : Bool) (w : Word) (rows : List OpcodeRow) : Option String :=
  (rows.find? (fun r => r.covers extM w)).map OpcodeRow.mnemonic

theorem masks_keep_opcode : ∀ r ∈ opcodeTable, r.mask.extractLsb' 0 7 = BitVec.allOnes 7 := by decide

theorem covers_opcode {extM : Bool} {w : Word} {r : OpcodeRow} (hr : r ∈ opcodeTable) (h : r.covers extM w = true) :
    opcodeField w = r.bits.extractLsb' 0 7 := by
  simp only [OpcodeRow.covers, Bool.and_eq_true, beq_iff_eq] at h
  exact extractLsb'_eq_of_mask h.2 (masks_keep_opcode r hr)

/-- Only rows of the word's own opcode matter. -/
theorem findMnemonic?_opcodeTable (extM : Bool) (w : Word) :
    findMnemonic? extM w opcodeTable = findMnemonic? extM w (rowsOf (opcodeField w)) := by
  rw [findMnemonic?, findMnemonic?, rowsOf, List.find?_filter]
  refine congrArg (Option.map OpcodeRow.mnemonic) (List.find?_congr fun r hr => ?_)
  by_cases h : r.covers extM w = true
  · simp [h, covers_opcode hr h]
  · simp [h]

theorem rowsOf_op33 : rowsOf 0x33#7 = mulDivRows ++ rRows := by decide

theorem rowsOf_op13 : rowsOf 0x13#7 = iRows := by decide

theorem rowsOf_load : rowsOf 0x03#7 = memRows.take 5 := by decide

theorem rowsOf_store : rowsOf 0x23#7 = memRows.drop 5 := by decide

theorem rowsOf_branch : rowsOf 0x63#7 = flowRows.take 6 := by decide

theorem rowsOf_lui : rowsOf 0x37#7 = [⟨"LUI", 0x00000037#32, 0x0000007F#32, false⟩] := by decide

theorem rowsOf_auipc : rowsOf 0x17#7 = [⟨"AUIPC", 0x00000017#32, 0x0000007F#32, false⟩] := by decide

theorem rowsOf_jal : rowsOf 0x6F#7 = [⟨"JAL", 0x0000006F#32, 0x0000007F#32, false⟩] := by decide

theorem rowsOf_jalr : rowsOf 0x67#7 = [⟨"JALR", 0x00000067#32, 0x0000007F#32, false⟩] := by decide

theorem rowsOf_fence : rowsOf 0x0F#7 = [⟨"FENCE", 0x0000000F#32, 0x0000007F#32, false⟩] := by decide

theorem opcode_of_row_known : ∀ r ∈ opcodeTable, r.bits.extractLsb' 0 7 ∈ knownOpcodes := by decide

theorem rowsOf_other {op : BitVec 7} (h : op ∉ knownOpcodes) : rowsOf op = [] := by
  refine List.filter_eq_nil_iff.2 fun r hr heq => h ?_
  rw [← beq_iff_eq.1 heq]
  exact opcode_of_row_known r hr

/-! ## The search through the rows of one opcode -/

theorem findMnemonic?_single {extM : Bool} {w : Word} {m : String} {bits : Word}
    (h : bits = 0#25 ++ opcodeField w) : findMnemonic? extM w [⟨m, bits, 0x0000007F#32, false⟩] = some m := by
  simp [findMnemonic?, OpcodeRow.covers, and_7F, h]

theorem find_mulDivRows {w : Word} (hop : opcodeField w = 0x33#7) (h7 : funct7Field w = 0b0000001#7) (rd rs1 rs2 : RegIdx) :
    findMnemonic? true w (mulDivRows ++ rRows) = some (mulDivOf (funct3Field w) rd rs1 rs2).mnemonic := by
  obtain h3 | h3 | h3 | h3 | h3 | h3 | h3 | h3 := funct3_cases (funct3Field w) <;>
    simp [findMnemonic?, mulDivRows, List.find?, OpcodeRow.covers, and_FE00707F, hop, h3, h7, mulDivOf, Instr.mnemonic]

theorem masks_keep_funct7 : ∀ r ∈ mulDivRows,
    r.needsM = true ∧ r.mask.extractLsb' 25 7 = BitVec.allOnes 7 ∧ r.bits.extractLsb' 25 7 = 0b0000001#7 := by decide

theorem mulDivRows_not_covers {extM : Bool} {w : Word} (h7 : ¬ (extM = true ∧ funct7Field w = 0b0000001#7)) :
    mulDivRows.find? (fun r => r.covers extM w) = none := by
  refine List.find?_eq_none.2 fun r hr h => h7 ?_
  obtain ⟨hM, hmask, hbits⟩ := masks_keep_funct7 r hr
  simp only [OpcodeRow.covers, hM, Bool.not_true, Bool.or_false, Bool.and_eq_true, beq_iff_eq] at h
  exact ⟨h.1, (extractLsb'_eq_of_mask h.2 hmask).trans hbits⟩

theorem find_rRows {extM : Bool} {w : Word} (hop : opcodeField w = 0x33#7)
    (h7 : ¬ (extM = true ∧ funct7Field w = 0b0000001#7)) (rd rs1 rs2 : RegIdx) :
    findMnemonic? extM w (mulDivRows ++ rRows) = some (rTypeOf (funct3Field w) (altBit w) rd rs1 rs2).mnemonic := by
  rw [findMnemonic?, List.find?_append, mulDivRows_not_covers h7, Option.none_or]
  obtain h3 | h3 | h3 | h3 | h3 | h3 | h3 | h3 := funct3_cases (funct3Field w) <;> cases halt : altBit w <;>
    simp [rRows, List.find?, OpcodeRow.covers, and_707F, and_4000707F, hop, h3, halt, rTypeOf, Instr.mnemonic]

theorem find_iRows {extM : Bool} {w : Word} (hop : opcodeField w = 0x13#7) (rd rs1 : RegIdx) (imm : BitVec 12)
    (shamt : BitVec 5) :
    findMnemonic? extM w iRows = some (iTypeOf (funct3Field w) (altBit w) rd rs1 imm shamt).mnemonic := by
  obtain h3 | h3 | h3 | h3 | h3 | h3 | h3 | h3 := funct3_cases (funct3Field w) <;> cases halt : altBit w <;>
    simp [findMnemonic?, iRows, List.find?, OpcodeRow.covers, and_707F, and_4000707F, hop, h3, halt, iTypeOf, Instr.mnemonic]

theorem find_loads {extM : Bool} {w : Word} (hop : opcodeField w = 0x03#7) (rd rs1 : RegIdx) (imm : BitVec 12) :
    findMnemonic? extM w (memRows.take 5) = (loadOf (funct3Field w) rd rs1 imm).mnemonic? := by
  obtain h3 | h3 | h3 | h3 | h3 | h3 | h3 | h3 := funct3_cases (funct3Field w) <;>
    simp [findMnemonic?, memRows, List.find?, OpcodeRow.covers, and_707F, hop, h3, loadOf, Decoded.mnemonic?, Instr.mnemonic]

theorem find_stores {extM : Bool} {w : Word} (hop : opcodeField w = 0x23#7) (rs1 rs2 : RegIdx) (imm : BitVec 12) :
    findMnemonic? extM w (memRows.drop 5) = (storeOf (funct3Field w) rs1 rs2 imm).mnemonic? := by
  obtain h3 | h3 | h3 | h3 | h3 | h3 | h3 | h3 := funct3_cases (funct3Field w) <;>
    simp [findMnemonic?, memRows, List.find?, OpcodeRow.covers, and_707F, hop, h3, storeOf, Decoded.mnemonic?, Instr.mnemonic]

theorem find_branches {extM : Bool} {w : Word} (hop : opcodeField w = 0x63#7) (rs1 rs2 : RegIdx) (imm : BitVec 13) :
    findMnemonic? extM w (flowRows.take 6) = (branchOf (funct3Field w) rs1 rs2 imm).mnemonic? := by
  obtain h3 | h3 | h3 | h3 | h3 | h3 | h3 | h3 := funct3_cases (funct3Field w) <;>
    simp [findMnemonic?, flowRows, List.find?, OpcodeRow.covers, and_707F, hop, h3, branchOf, Decoded.mnemonic?, Instr.mnemonic]

/-- Settles O4: the search through the rows of the word's opcode, against the unit that opcode selects. -/
theorem decodeFollowsTheOpcodeTable : Obligations.DecodeFollowsTheOpcodeTable := by
  intro extM w
  suffices h : (decode extM w).mnemonic? = findMnemonic? extM w (rowsOf (opcodeField w)) from
    h.trans (findMnemonic?_opcodeTable extM w).symm
  refine by_opcode (opcodeField w) ?r ?i ?l ?s ?b ?lui ?auipc ?jal ?jalr ?fence ?other <;> intro hop
  case r =>
    rw [hop, rowsOf_op33]
    by_cases h7 : extM = true ∧ funct7Field w = 0b0000001#7
    · obtain ⟨rfl, h7⟩ := h7
      rw [decode_mulDiv hop h7, find_mulDivRows hop h7]; rfl
    · rw [decode_r hop h7, find_rRows hop h7]; rfl
  case i => rw [decode_i hop, hop, rowsOf_op13, find_iRows hop]; rfl
  case l => rw [decode_load hop, hop, rowsOf_load, find_loads hop]
  case s => rw [decode_store hop, hop, rowsOf_store, find_stores hop]
  case b => rw [decode_branch hop, hop, rowsOf_branch, find_branches hop]
  case lui => rw [decode_lui hop, hop, rowsOf_lui, findMnemonic?_single (by rw [hop]; rfl)]; rfl
  case auipc => rw [decode_auipc hop, hop, rowsOf_auipc, findMnemonic?_single (by rw [hop]; rfl)]; rfl
  case jal => rw [decode_jal hop, hop, rowsOf_jal, findMnemonic?_single (by rw [hop]; rfl)]; rfl
  case jalr => rw [decode_jalr hop, hop, rowsOf_jalr, findMnemonic?_single (by rw [hop]; rfl)]; rfl
  case fence => rw [decode_fence hop, hop, rowsOf_fence, findMnemonic?_single (by rw [hop]; rfl)]; rfl
  case other => rw [decode_otherOpcode hop, rowsOf_other hop]; rfl

end Sys2Proof
end

section
/-! The memory accessor (20_memory.md sections 1 to 3): what a read gives, what a write stores, the window, and the
canonical form as extensional data. -/

namespace Sys2Proof.Machine

theorem AccessWidth.bytes_le_four (w : AccessWidth) : w.bytes ≤ 4 := by cases w <;> decide

/-- An access with a byte outside the window fails the window check (20_memory.md R46). -/
theorem windowHolds_eq_false {c : Config} {a n : Nat} (h : ∃ k, k < n ∧ inWindow c (a + k) = false) :
    windowHolds c a n = false := by
  obtain ⟨k, hk, outside⟩ := h
  refine Bool.eq_false_iff.2 fun inside => ?_
  rw [(windowHolds_iff c a n).1 inside k hk] at outside
  cases outside

theorem readLE_extractLsb' (m : Memory) (a : Nat) {n k : Nat} (hn : n ≤ 4) (hk : k < n) :
    (m.readLE a n).extractLsb' (8 * k) 8 = m.read (a + k) := by
  apply BitVec.eq_of_getLsbD_eq
  intro i hi
  rw [BitVec.getLsbD_extractLsb', Memory.getLsbD_readLE m a n _ hn, show (8 * k + i) / 8 = k by omega,
    show (8 * k + i) % 8 = i by omega]
  simp [hi, show 8 * k + i < 8 * n by omega]

theorem readLE_getLsbD_above (m : Memory) (a : Nat) {n i : Nat} (hn : n ≤ 4) (hi : 8 * n ≤ i) :
    (m.readLE a n).getLsbD i = false := by
  simp [Memory.getLsbD_readLE m a n i hn, hi]

/-- Settles O10: an access inside the window is the little-endian read, whose bits are the bytes'. -/
theorem memReadIsLittleEndianAndZeroExtended : Obligations.MemReadIsLittleEndianAndZeroExtended := by
  intro c m kind addr w
  refine ⟨fun inside => ?_, fun outside => memRead_error.2 ⟨windowHolds_eq_false outside, rfl⟩⟩
  exact ⟨m.readLE addr.toNat w.bytes, memRead_ok.2 ⟨(windowHolds_iff _ _ _).2 inside, rfl⟩,
    fun k hk => readLE_extractLsb' m _ w.bytes_le_four hk, fun i hi => readLE_getLsbD_above m _ w.bytes_le_four hi⟩

/-- Settles O11: an access inside the window is the little-endian write. -/
theorem memWriteStoresExactlyItsBytes : Obligations.MemWriteStoresExactlyItsBytes := by
  intro c m addr w v
  refine ⟨fun inside => ?_, fun outside => memWrite_error.2 ⟨windowHolds_eq_false outside, rfl⟩⟩
  exact ⟨m.writeLE addr.toNat v w.bytes, memWrite_ok.2 ⟨(windowHolds_iff _ _ _).2 inside, rfl⟩,
    fun k hk => Memory.read_writeLE_inside m _ v _ k hk, fun a ha => Memory.read_writeLE_outside m _ a v _ ha⟩

theorem inWindow_iff (c : Config) (a : Nat) :
    inWindow c a = true ↔ c.memBase.toNat ≤ a ∧ a < c.memBase.toNat + c.memSize := by
  rw [inWindow, Bool.and_eq_true, decide_eq_true_eq, decide_eq_true_eq]
  exact Iff.rfl

/-- Settles O12: the window's two bounds. -/
theorem windowIsHalfOpen : Obligations.WindowIsHalfOpen := fun c a => inWindow_iff c a.toNat

/-! ## The canonical form is extensional (10_state.md R31) -/

theorem readCells_head (a : Nat) (v : Byte) (cs : List Host.Cell) : readCells a ((a, v) :: cs) = v := by
  simp [readCells]

theorem readCells_tail {a b : Nat} (h : b ≠ a) (v : Byte) (cs : List Host.Cell) :
    readCells b ((a, v) :: cs) = readCells b cs := by
  simp [readCells, h.symm]

/-- A canonical list of cells does not read as the background everywhere: its first cell is seen. -/
theorem cells_eq_nil_of_reads_background {lo : Nat} {cs : List Host.Cell} (wf : cellsWf lo cs = true)
    (reads : ∀ a, readCells a cs = Memory.background) : cs = [] := by
  cases cs with
  | nil => rfl
  | cons c cs =>
    obtain ⟨a, v⟩ := c
    obtain ⟨-, hv, -⟩ := (cellsWf_cons lo a v cs).1 wf
    exact absurd ((readCells_head a v cs).symm.trans (reads a)) hv

/-- The first cell of a canonical list is at the lowest address that does not read as the background. -/
theorem head_le_of_reads {lo a b : Nat} {u v : Byte} {cs ds : List Host.Cell} (wf : cellsWf lo ((b, u) :: ds) = true)
    (hv : v ≠ Memory.background) (reads : readCells a ((a, v) :: cs) = readCells a ((b, u) :: ds)) : b ≤ a := by
  by_contra hlt
  obtain ⟨-, -, wfTail⟩ := (cellsWf_cons lo b u ds).1 wf
  rw [readCells_head, readCells_tail (by omega), readCells_below (by omega) wfTail] at reads
  exact hv reads

/-- Two canonical lists that read alike are equal: their first cells stand at one address, and so on. -/
theorem cells_eq_of_reads_alike {cs : List Host.Cell} : ∀ {lo lo' : Nat} {ds : List Host.Cell},
    cellsWf lo cs = true → cellsWf lo' ds = true → (∀ a, readCells a cs = readCells a ds) → cs = ds := by
  induction cs with
  | nil => exact fun _ wf' reads => (cells_eq_nil_of_reads_background wf' fun a => (reads a).symm).symm
  | cons c cs ih =>
    intro lo lo' ds wf wf' reads
    obtain ⟨a, v⟩ := c
    cases ds with
    | nil => exact cells_eq_nil_of_reads_background wf reads
    | cons d ds =>
      obtain ⟨b, u⟩ := d
      obtain ⟨-, hv, wfTail⟩ := (cellsWf_cons lo a v cs).1 wf
      obtain ⟨-, hu, wfTail'⟩ := (cellsWf_cons lo' b u ds).1 wf'
      obtain rfl : a = b :=
        Nat.le_antisymm (head_le_of_reads wf hu (reads b).symm) (head_le_of_reads wf' hv (reads a))
      obtain rfl : v = u := by simpa [readCells_head] using reads a
      have readsTail : ∀ x, readCells x cs = readCells x ds := by
        intro x
        by_cases hx : x = a
        · rw [hx, readCells_below (Nat.lt_succ_self a) wfTail, readCells_below (Nat.lt_succ_self a) wfTail']
        · rw [← readCells_tail hx v cs, ← readCells_tail hx v ds, reads x]
      rw [ih wfTail wfTail' readsTail]

/-- Settles O13: the cells, by induction. -/
theorem canonicalMemoriesThatReadAlikeAreEqual : Obligations.CanonicalMemoriesThatReadAlikeAreEqual := by
  intro m₁ m₂ wf₁ wf₂ reads
  obtain ⟨cs⟩ := m₁
  obtain ⟨ds⟩ := m₂
  exact congrArg Memory.mk (cells_eq_of_reads_alike wf₁ wf₂ reads)

end Sys2Proof.Machine
end

section
/-! Stores, what a later load reads back of them (44_stores.md R164), and what the next fetch sees (20_memory.md R56). -/

namespace Sys2Proof.Machine

/-! ## Loads and stores, by their templates -/

theorem exec_lb (rd rs1 : RegIdx) (imm : BitVec 12) (s : State) :
    exec (.lb rd rs1 imm) s = loadInto .byte signExtendByte rd rs1 imm s := rfl

theorem exec_lh (rd rs1 : RegIdx) (imm : BitVec 12) (s : State) :
    exec (.lh rd rs1 imm) s = loadInto .half signExtendHalf rd rs1 imm s := rfl

theorem exec_lw (rd rs1 : RegIdx) (imm : BitVec 12) (s : State) :
    exec (.lw rd rs1 imm) s = loadInto .word wholeWord rd rs1 imm s := rfl

theorem exec_lbu (rd rs1 : RegIdx) (imm : BitVec 12) (s : State) :
    exec (.lbu rd rs1 imm) s = loadInto .byte zeroExtendByte rd rs1 imm s := rfl

theorem exec_lhu (rd rs1 : RegIdx) (imm : BitVec 12) (s : State) :
    exec (.lhu rd rs1 imm) s = loadInto .half zeroExtendHalf rd rs1 imm s := rfl

theorem exec_sb (rs1 rs2 : RegIdx) (imm : BitVec 12) (s : State) :
    exec (.sb rs1 rs2 imm) s = storeFrom .byte rs1 rs2 imm s := rfl

theorem exec_sh (rs1 rs2 : RegIdx) (imm : BitVec 12) (s : State) :
    exec (.sh rs1 rs2 imm) s = storeFrom .half rs1 rs2 imm s := rfl

theorem exec_sw (rs1 rs2 : RegIdx) (imm : BitVec 12) (s : State) :
    exec (.sw rs1 rs2 imm) s = storeFrom .word rs1 rs2 imm s := rfl

/-! ## Inside the window -/

/-- The byte that LB and LBU extend. -/
theorem extractLsb'_readLE_one (m : Memory) (a : Nat) : (m.readLE a 1).extractLsb' 0 8 = m.read a :=
  readLE_extractLsb' m a (n := 1) (k := 0) (by decide) (by decide)

/-- The halfword that LH and LHU extend. -/
theorem extractLsb'_readLE_two (m : Memory) (a : Nat) :
    (m.readLE a 2).extractLsb' 0 16 = m.read (a + 1) ++ m.read a := by
  rw [Memory.readLE_two]
  apply BitVec.eq_of_getLsbD_eq
  intro i hi
  simp [hi, show i < 32 by omega]

/-- Settles O41: the load template at one byte, with the two extensions. -/
theorem byteLoads : Obligations.ByteLoads := by
  rintro rd rs1 imm s ea legal rfl holds
  rw [exec_lb, exec_lbu, ← extractLsb'_readLE_one]
  exact ⟨loadInto_spec .byte _ rd rs1 imm s legal holds, loadInto_spec .byte _ rd rs1 imm s legal holds⟩

/-- Settles O42: the load template at two bytes, with the two extensions. -/
theorem halfwordLoads : Obligations.HalfwordLoads := by
  rintro rd rs1 imm s ea legal rfl holds
  rw [exec_lh, exec_lhu, ← extractLsb'_readLE_two]
  exact ⟨loadInto_spec .half _ rd rs1 imm s legal holds, loadInto_spec .half _ rd rs1 imm s legal holds⟩

/-- Settles O43: the load template at four bytes, without extension. -/
theorem wordLoad : Obligations.WordLoad := by
  rintro rd rs1 imm s ea legal rfl holds
  rw [exec_lw, ← Memory.readLE_four]
  exact loadInto_spec .word _ rd rs1 imm s legal holds

/-- Settles O45: the store template, at each of the three widths. -/
theorem storesWriteTheLowBytes : Obligations.StoresWriteTheLowBytes := by
  rintro rs1 rs2 imm s ea legal rfl
  rw [exec_sb, exec_sh, exec_sw]
  exact ⟨storeFrom_spec .byte rs1 rs2 imm s legal, storeFrom_spec .half rs1 rs2 imm s legal,
    storeFrom_spec .word rs1 rs2 imm s legal⟩

/-! ## Outside the window -/

/-- Settles O44: the load template faults before it looks at rd or extends anything. -/
theorem loadsOutsideTheWindowFault : Obligations.LoadsOutsideTheWindowFault := by
  rintro rd rs1 imm s ea legal rfl
  rw [exec_lb, exec_lbu, exec_lh, exec_lhu, exec_lw]
  exact ⟨fun h => ⟨loadInto_fault .byte _ rd rs1 imm s legal h, loadInto_fault .byte _ rd rs1 imm s legal h⟩,
    fun h => ⟨loadInto_fault .half _ rd rs1 imm s legal h, loadInto_fault .half _ rd rs1 imm s legal h⟩,
    fun h => loadInto_fault .word _ rd rs1 imm s legal h⟩

/-- Settles O46: the store template faults at each of the three widths. -/
theorem storesOutsideTheWindowFault : Obligations.StoresOutsideTheWindowFault := by
  rintro rs1 rs2 imm s ea legal rfl
  rw [exec_sb, exec_sh, exec_sw]
  exact ⟨storeFrom_fault .byte rs1 rs2 imm s legal, storeFrom_fault .half rs1 rs2 imm s legal,
    storeFrom_fault .word rs1 rs2 imm s legal⟩

/-! ## A load after a store (R164) -/

/-- A store that goes on was made in the window of a legal configuration, and stored its bytes. -/
theorem storeFrom_next {w : AccessWidth} {rs1 rs2 : RegIdx} {imm : BitVec 12} {s t : State}
    (h : storeFrom w rs1 rs2 imm s = .next t) :
    s.cfg.wf = true ∧ s.Holds (effectiveAddress s rs1 imm) w.bytes ∧
      BytesStored s t (effectiveAddress s rs1 imm) w.bytes (s.readReg rs2) (s.pc + 4#32) := by
  obtain ⟨legal, -⟩ := commit_next h
  by_cases holds : s.Holds (effectiveAddress s rs1 imm) w.bytes
  · obtain ⟨t', ht', stored⟩ := storeFrom_spec w rs1 rs2 imm s legal holds
    cases ht'.symm.trans h
    exact ⟨legal, holds, stored⟩
  · cases (storeFrom_fault w rs1 rs2 imm s legal holds).symm.trans h

/-- Bytes that hold a value's low bytes read back as its low bits. -/
theorem readLE_low_of_stored {m : Memory} {a n : Nat} {v : Word} (hn : n ≤ 4)
    (stored : ∀ k, k < n → m.read (a + k) = v.extractLsb' (8 * k) 8) :
    (m.readLE a n).extractLsb' 0 (8 * n) = v.extractLsb' 0 (8 * n) := by
  apply BitVec.eq_of_getLsbD_eq
  intro i hi
  rw [BitVec.getLsbD_extractLsb', BitVec.getLsbD_extractLsb', Memory.getLsbD_readLE_stored hn stored]
  simp [hi]

/-- Four bytes that hold a word's bytes read back as the word. -/
theorem readLE_four_of_stored {m : Memory} {a : Nat} {v : Word}
    (stored : ∀ k, k < 4 → m.read (a + k) = v.extractLsb' (8 * k) 8) : m.readLE a 4 = v := by
  have low := readLE_low_of_stored (by decide) stored
  rwa [BitVec.extractLsb'_eq_self, BitVec.extractLsb'_eq_self] at low

/-- After a store, a load of its width through the same register and displacement extends the bytes just stored. -/
theorem loadInto_of_storeFrom {w : AccessWidth} {rs1 rs2 : RegIdx} {imm : BitVec 12} {s t : State}
    (h : storeFrom w rs1 rs2 imm s = .next t) (extend : Word → Word) (rd : RegIdx) :
    ∃ u v, loadInto w extend rd rs1 imm t = .next u ∧ (u.readReg rd = if rd = 0 then 0#32 else extend v) ∧
      v.extractLsb' 0 (8 * w.bytes) = (s.readReg rs2).extractLsb' 0 (8 * w.bytes) := by
  obtain ⟨legal, holds, stored⟩ := storeFrom_next h
  have hea : effectiveAddress t rs1 imm = effectiveAddress s rs1 imm := by
    rw [effectiveAddress, effectiveAddress, stored.regs]
  obtain ⟨u, hu, written⟩ := loadInto_spec w extend rd rs1 imm t (by rwa [stored.params])
    (by rwa [hea, State.Holds, stored.params])
  rw [hea] at written
  exact ⟨u, _, hu, written.result, readLE_low_of_stored w.bytes_le_four stored.stored⟩

/-- Settles O14: the bytes read back have the low bits of x[rs2]. -/
theorem storedValueIsLoadedBack : Obligations.StoredValueIsLoadedBack := by
  intro rd rs1 rs2 imm s t
  rw [exec_sw, exec_sh, exec_sb, exec_lw, exec_lhu, exec_lbu]
  refine ⟨fun h => ?word, fun h => ?half, fun h => ?byte⟩
  case word =>
    obtain ⟨u, v, hu, result, low⟩ := loadInto_of_storeFrom h wholeWord rd
    have hv : v = s.readReg rs2 := BitVec.extractLsb'_eq_self.symm.trans (low.trans BitVec.extractLsb'_eq_self)
    exact ⟨u, hu, hv ▸ result⟩
  case half =>
    obtain ⟨u, v, hu, result, low⟩ := loadInto_of_storeFrom h zeroExtendHalf rd
    exact ⟨u, hu, result.trans (by rw [zeroExtendHalf, show v.extractLsb' 0 16 = _ from low]; rfl)⟩
  case byte =>
    obtain ⟨u, v, hu, result, low⟩ := loadInto_of_storeFrom h zeroExtendByte rd
    exact ⟨u, hu, result.trans (by rw [zeroExtendByte, show v.extractLsb' 0 8 = _ from low]; rfl)⟩

/-! ## The next fetch after a store (R56) -/

/-- Settles O15: SW leaves the next pc at its own effective address, where the fetch reads the four bytes stored. -/
theorem storeIsSeenByTheNextFetch : Obligations.StoreIsSeenByTheNextFetch := by
  intro rs1 rs2 imm s t running hea h
  obtain ⟨legal, unmarked⟩ := running
  obtain ⟨-, holds, stored⟩ := storeFrom_next (w := .word) h
  have hpc : t.pc = effectiveAddress s rs1 imm := stored.nextPc.trans hea.symm
  have running' : t.Running := ⟨by rw [stored.params]; exact legal, stored.mark.trans unmarked⟩
  have hfetch : fetchWord t = .ok (s.readReg rs2) := by
    refine fetchWord_ok.2 ⟨by rwa [hpc, State.Holds, stored.params], ?_⟩
    rw [hpc]
    exact (readLE_four_of_stored stored.stored).symm
  rw [step_of_fetch running' hfetch, stored.params]

end Sys2Proof.Machine
end

section
/-! The step driver (40_step_driver.md): what stops a step, what a fault leaves, `valid_step`, the host's loop, and the
refusal of every operation outside 00_scope.md R9. -/

namespace Sys2Proof.Machine

/-! ## A step of a running state (R92) -/

theorem dispatch_instr (i : Instr) (s : State) : dispatch (.instr i) s = exec i s := rfl

/-- A fetch with a byte outside the window stops the step (20_memory.md R46). -/
theorem step_of_fetch_fault {s : State} (running : s.Running) (h : ¬ s.Holds s.pc 4) :
    step s = .fault (.memFault .fetch s.pc .word) := by
  rw [step, stepHart, withHart_running running, fetchWord_error.2 ⟨h, rfl⟩]

/-- A step whose fetch lies in the window dispatches the little-endian word at the pc. -/
theorem step_of_holds {s : State} (running : s.Running) (h : s.Holds s.pc 4) :
    step s = dispatch (decode s.cfg.extM (s.mem.read (s.pc.toNat + 3) ++ s.mem.read (s.pc.toNat + 2) ++
      s.mem.read (s.pc.toNat + 1) ++ s.mem.read s.pc.toNat)) s :=
  step_of_fetch running (fetchWord_of_holds h)

/-- Settles O16: the dispatch of the decoder's answer. -/
theorem stepRunsTheDecodedInstruction : Obligations.StepRunsTheDecodedInstruction := by
  intro s running holds
  dsimp only
  rw [step_of_holds running holds]
  exact ⟨fun i hi => by rw [hi, dispatch_instr], fun why hwhy => by rw [hwhy]; rfl⟩

/-- A dispatch on a legal configuration goes on, or the access of its instruction has a byte outside the window. -/
theorem dispatch_outcome (d : Decoded) {s : State} (legal : s.cfg.wf = true) :
    (∃ i kind ea w, d = .instr i ∧ accessOf s i = some (kind, ea, w) ∧ ¬ s.Holds ea w.bytes ∧
      dispatch d s = .fault (.memFault kind ea w)) ∨
    ((∀ i kind ea w, d = .instr i → accessOf s i = some (kind, ea, w) → s.Holds ea w.bytes) ∧
      ∃ t, dispatch d s = .next t) := by
  cases d with
  | undefined why =>
    obtain ⟨t, ht, -⟩ := commit_advance_spec s legal
    exact .inr ⟨fun _ _ _ _ hd => (by cases hd), t, ht⟩
  | instr i =>
    obtain ⟨kind, ea, w, access, outside, hf⟩ | ⟨inside, t, ht⟩ := exec_outcome i s legal
    · exact .inl ⟨i, kind, ea, w, rfl, access, outside, hf⟩
    · exact .inr ⟨fun _ _ _ _ hd access => inside _ _ _ (Decoded.instr.inj hd ▸ access), t, ht⟩

/-- Settles O18: the fetch first, then the dispatch of what it read. -/
theorem onlyAccessesOutsideTheWindowStopAStep : Obligations.OnlyAccessesOutsideTheWindowStopAStep := by
  intro s running
  by_cases holds : s.Holds s.pc 4
  · rw [step_of_holds running holds]
    obtain ⟨legal, -⟩ := running
    exact .inr ⟨holds, _, rfl, dispatch_outcome _ legal⟩
  · exact .inl ⟨holds, step_of_fetch_fault running holds⟩

/-! ## After a fault (R94, 60_exceptions.md R224) -/

theorem step_marked {s : State} {f : Fault} (legal : s.cfg.wf = true) (mark : s.faultMark = some f) :
    step s = .fault f := withHart_marked legal mark _

theorem validStep_marked {s : State} {f : Fault} (legal : s.cfg.wf = true) (mark : s.faultMark = some f) :
    validStep s = .fault f := withHart_marked legal mark _

/-- Settles O19: a fault leaves the state as it was, marked, and the mark answers every later call. -/
theorem faultLeavesTheStateMarkedAndStuck : Obligations.FaultLeavesTheStateMarkedAndStuck := by
  rintro s t f ⟨legal, -⟩ h rfl
  rw [h, show stateAfter s (.fault f) = raiseFault f s from rfl]
  exact ⟨rfl, rfl, rfl, rfl, rfl, step_marked (s := raiseFault f s) legal rfl,
    validStep_marked (s := raiseFault f s) legal rfl⟩

/-! ## valid_step (R100) -/

theorem validStep_past_end {s : State} (running : s.Running) (h : s.cfg.memEnd ≤ s.pc.toNat) :
    validStep s = .next false := by
  rw [validStep, withHart_running running, if_neg (Nat.not_lt.2 h)]

theorem validStep_fault {s : State} (running : s.Running) (below : s.pc.toNat < s.cfg.memEnd) (h : ¬ s.Holds s.pc 4) :
    validStep s = .fault (.memFault .fetch s.pc .word) := by
  rw [validStep, withHart_running running, if_pos below, fetchWord_error.2 ⟨h, rfl⟩]

theorem validStep_word {s : State} (running : s.Running) (below : s.pc.toNat < s.cfg.memEnd) (h : s.Holds s.pc 4) :
    validStep s = .next (s.mem.readLE s.pc.toNat 4 != 0#32) := by
  rw [validStep, withHart_running running, if_pos below, fetchWord_ok.2 ⟨h, rfl⟩]

/-- A word of memory is zero exactly when its four bytes are. -/
theorem readLE_four_eq_zero_iff (m : Memory) (a : Nat) :
    m.readLE a 4 = 0#32 ↔ ∀ k, k < 4 → m.read (a + k) = 0x00#8 := by
  constructor
  · intro h k hk
    rw [← readLE_extractLsb' m a (le_refl 4) hk, h, BitVec.extractLsb'_zero]
  · intro h
    refine readLE_four_of_stored fun k hk => ?_
    rw [h k hk, BitVec.extractLsb'_zero]

/-- Settles O23: the bound on the pc, then the read, then the word. -/
theorem validStepAnswersByBoundThenWord : Obligations.ValidStepAnswersByBoundThenWord := by
  intro s running
  refine ⟨validStep_past_end running, validStep_fault running, fun below holds => ?_⟩
  refine ⟨_, validStep_word running below holds, ?_⟩
  rw [← readLE_four_eq_zero_iff, bne_eq_false_iff_eq]

/-! ## A run of the host's loop (R105) -/

/-- A step or a `valid_step` that faults was made on a legal configuration. -/
theorem onLegalConfig_fault {α : Type} {s : State} {go : Host.Outcome α Fault Refusal} {f : Fault}
    (h : onLegalConfig s go = .fault f) : s.cfg.wf = true := by
  by_contra hc
  rw [onLegalConfig_illegal (by simpa using hc)] at h
  cases h

/-- What a run's end says of the state it ends in. -/
def EndsWell : RunEnd → Prop
  | .halted t => validStep t = .next false
  | .faulted t => ∃ f, t.faultMark = some f ∧ validStep t = .fault f
  | .stopped _ => True
  | .refused _ => True

theorem endsWell_raiseFault {s : State} (f : Fault) (legal : s.cfg.wf = true) : EndsWell (.faulted (raiseFault f s)) :=
  ⟨f, rfl, validStep_marked (s := raiseFault f s) legal rfl⟩

/-- Every run ends well, by induction on the number of steps the host allows. -/
theorem hostRun_endsWell (n : Nat) (s : State) : EndsWell (hostRun n s) := by
  induction n generalizing s with
  | zero => trivial
  | succ n ih =>
    rw [hostRun]
    split
    next f hv => exact endsWell_raiseFault f (onLegalConfig_fault hv)
    next r hv => trivial
    next hv => exact hv
    next hv =>
      split
      next t hs => exact ih t
      next f hs => exact endsWell_raiseFault f (onLegalConfig_fault hs)
      next r hs => trivial

/-- Settles O24: the two ends that say something. -/
theorem runsEndAsValidStepAndTheFaultMarkSay : Obligations.RunsEndAsValidStepAndTheFaultMarkSay := by
  intro n s t
  have h := hostRun_endsWell n s
  exact ⟨fun halted => by rwa [halted] at h, fun faulted => by rwa [faulted] at h⟩

/-! ## Outside 00_scope.md R9 -/

theorem step_illegal {s : State} (h : s.cfg.wf = false) : step s = .refused .configNotWellFormed :=
  withHart_illegal h _

theorem validStep_illegal {s : State} (h : s.cfg.wf = false) : validStep s = .refused .configNotWellFormed :=
  withHart_illegal h _

theorem initHart_illegal {s : State} (h : s.cfg.wf = false) : initHart s = .refused .configNotWellFormed :=
  onLegalConfig_illegal h _

theorem loadImage_illegal {s : State} (h : s.cfg.wf = false) (image : List Byte) :
    loadImage image s = .refused .configNotWellFormed := onLegalConfig_illegal h _

theorem boot_illegal {s : State} (h : s.cfg.wf = false) (image : List Byte) :
    boot image s = .refused .configNotWellFormed := by rw [boot, loadImage_illegal h]

/-- Settles O20: every operation asks for a legal configuration first. -/
theorem illFormedConfigurationIsRefused : Obligations.IllFormedConfigurationIsRefused := by
  intro s broken
  have illegal : s.cfg.wf = false := by
    rw [← Config.wf_iff] at broken
    simpa using broken
  exact ⟨step_illegal illegal, validStep_illegal illegal, initHart_illegal illegal,
    fun image => ⟨loadImage_illegal illegal image, boot_illegal illegal image⟩, fun i => exec_illegal i illegal,
    commit_illegal _ illegal⟩

end Sys2Proof.Machine
end

section
/-! An even pc stays even (10_state.md R27, 90_conflicts.md C1). -/

namespace Sys2Proof.Machine

/-- A sum of even words is even: reduction modulo 2^32 leaves bit 0 alone. -/
theorem even_add {a b : Word} (ha : a.getLsbD 0 = false) (hb : b.getLsbD 0 = false) : (a + b).getLsbD 0 = false := by
  simp only [BitVec.getLsbD, Nat.testBit_zero, decide_eq_false_iff_not] at ha hb ⊢
  rw [BitVec.toNat_add]
  omega

theorem even_signExtend {n : Nat} {imm : BitVec (n + 1)} (h : evenOffset imm = true) :
    (imm.signExtend 32).getLsbD 0 = false := by
  simp only [evenOffset, Bool.not_eq_true'] at h
  rw [signExtend_getLsbD imm (by decide)]
  cases n <;> exact h

/-- JALR's mask clears bit 0 (47_jumps.md R187). -/
theorem even_jalrTarget (s : State) (rs1 : RegIdx) (imm : BitVec 12) : (jalrTarget s rs1 imm).getLsbD 0 = false := by
  simp [jalrTarget]

theorem even_redirectOf {i : Instr} {extM : Bool} {s : State} {target : Word} (even : s.pc.getLsbD 0 = false)
    (wf : i.wf extM = true) (h : redirectOf s i = some target) : target.getLsbD 0 = false := by
  cases i with
  | beq | bne | blt | bge | bltu | bgeu | jal => cases h; exact even_add even (even_signExtend wf)
  | jalr rd rs1 imm => cases h; exact even_jalrTarget s rs1 imm
  | _ => cases h

theorem even_advance {s : State} (even : s.pc.getLsbD 0 = false) : (s.pc + 4#32).getLsbD 0 = false :=
  even_add even rfl

/-- Settles O27: a decoded instruction is well-formed, so its target is even when the pc is. -/
theorem stepKeepsThePcEven : Obligations.StepKeepsThePcEven := by
  intro s t even h
  obtain ⟨w, -, -, hd⟩ := step_next h
  cases hdec : decode s.cfg.extM w with
  | undefined why =>
    rw [hdec, dispatch_undefined] at hd
    rw [commit_next_pc hd]
    exact even_advance even
  | instr i =>
    rw [hdec, dispatch_instr] at hd
    obtain advanced | redirected := exec_next_pc hd
    · rw [advanced]
      exact even_advance even
    · exact even_redirectOf even (decode_wf hdec) redirected

end Sys2Proof.Machine
end

section
/-! What slot 0 holds is never seen (10_state.md R21, R22; log entry 10): the operands, then the templates, then `exec` and
`step`. -/

namespace Sys2Proof.Machine

/-- The state with another value in slot 0. -/
def State.withSlot0 (s : State) (v : Word) : State := { s with regs := s.regs.set 0 v }

@[simp] theorem State.withSlot0_pc (s : State) (v : Word) : (s.withSlot0 v).pc = s.pc := rfl
@[simp] theorem State.withSlot0_mem (s : State) (v : Word) : (s.withSlot0 v).mem = s.mem := rfl
@[simp] theorem State.withSlot0_cfg (s : State) (v : Word) : (s.withSlot0 v).cfg = s.cfg := rfl

@[simp] theorem readReg_withSlot0 (s : State) (v : Word) (r : RegIdx) : (s.withSlot0 v).readReg r = s.readReg r :=
  readReg_setSlot0 s v r

@[simp] theorem commit_withSlot0 (e : Effect) (s : State) (v : Word) : commit e (s.withSlot0 v) = commit e s :=
  commit_setSlot0 e s v

/-! ## The operands -/

theorem regPair_withSlot0 (s : State) (v : Word) (rs1 rs2 : RegIdx) :
    regPair (s.withSlot0 v) rs1 rs2 = regPair s rs1 rs2 := by simp [regPair]

theorem regImm_withSlot0 (s : State) (v : Word) (rs1 : RegIdx) (imm : BitVec 12) :
    regImm (s.withSlot0 v) rs1 imm = regImm s rs1 imm := by simp [regImm]

theorem regShamt_withSlot0 (s : State) (v : Word) (rs1 : RegIdx) (shamt : BitVec 5) :
    regShamt (s.withSlot0 v) rs1 shamt = regShamt s rs1 shamt := by simp [regShamt]

theorem effectiveAddress_withSlot0 (s : State) (v : Word) (rs1 : RegIdx) (imm : BitVec 12) :
    effectiveAddress (s.withSlot0 v) rs1 imm = effectiveAddress s rs1 imm := by simp [effectiveAddress]

theorem jalrTarget_withSlot0 (s : State) (v : Word) (rs1 : RegIdx) (imm : BitVec 12) :
    jalrTarget (s.withSlot0 v) rs1 imm = jalrTarget s rs1 imm := by simp [jalrTarget]

/-! ## The templates -/

theorem writeResult_withSlot0 (op : Word → Word → Word) {p p' : Word × Word} (hp : p' = p) (rd : RegIdx) (s : State)
    (v : Word) : writeResult op p' rd (s.withSlot0 v) = writeResult op p rd s := by
  subst hp
  exact commit_withSlot0 _ s v

theorem branchOn_withSlot0 (cond : Word → Word → Bool) (rs1 rs2 : RegIdx) (imm : BitVec 13) (s : State) (v : Word) :
    branchOn cond rs1 rs2 imm (s.withSlot0 v) = branchOn cond rs1 rs2 imm s := by
  simp [branchOn, branchTarget]

theorem jumpTo_withSlot0 {target target' : Word} (ht : target' = target) (rd : RegIdx) (s : State) (v : Word) :
    jumpTo target' rd (s.withSlot0 v) = jumpTo target rd s := by
  subst ht
  exact commit_withSlot0 _ s v

theorem storeFrom_withSlot0 (w : AccessWidth) (rs1 rs2 : RegIdx) (imm : BitVec 12) (s : State) (v : Word) :
    storeFrom w rs1 rs2 imm (s.withSlot0 v) = storeFrom w rs1 rs2 imm s := by
  simp [storeFrom, effectiveAddress_withSlot0]

theorem loadInto_withSlot0 (w : AccessWidth) (extend : Word → Word) (rd rs1 : RegIdx) (imm : BitVec 12) (s : State)
    (v : Word) : loadInto w extend rd rs1 imm (s.withSlot0 v) = loadInto w extend rd rs1 imm s := by
  simp [loadInto, onLegalConfig, effectiveAddress_withSlot0, writeEffect]

/-! ## Instructions and steps -/

theorem exec_withSlot0 (i : Instr) (s : State) (v : Word) : exec i (s.withSlot0 v) = exec i s := by
  cases i with
  | add | sub | sll | slt | sltu | xor | srl | sra | or | and | mul | mulh | mulhsu | mulhu | div | divu | rem | remu =>
    exact writeResult_withSlot0 _ (regPair_withSlot0 s v _ _) _ s v
  | addi | slti | sltiu | xori | ori | andi => exact writeResult_withSlot0 _ (regImm_withSlot0 s v _ _) _ s v
  | slli | srli | srai => exact writeResult_withSlot0 _ (regShamt_withSlot0 s v _ _) _ s v
  | lb | lh | lw | lbu | lhu => exact loadInto_withSlot0 _ _ _ _ _ s v
  | sb | sh | sw => exact storeFrom_withSlot0 _ _ _ _ s v
  | beq | bne | blt | bge | bltu | bgeu => exact branchOn_withSlot0 _ _ _ _ s v
  | lui | auipc => exact commit_withSlot0 (writeEffect s _ _) s v
  | fence => exact commit_withSlot0 (advanceEffect s) s v
  | jal => exact jumpTo_withSlot0 rfl _ s v
  | jalr => exact jumpTo_withSlot0 (jalrTarget_withSlot0 s v _ _) _ s v

theorem dispatch_withSlot0 (d : Decoded) (s : State) (v : Word) : dispatch d (s.withSlot0 v) = dispatch d s := by
  cases d with
  | instr i => exact exec_withSlot0 i s v
  | undefined why => exact commit_withSlot0 (advanceEffect s) s v

/-- The fetch, the configuration and the mark are not in the register file. -/
theorem step_withSlot0 (s : State) (v : Word) : step (s.withSlot0 v) = step s := by
  have hfetch : fetchWord (s.withSlot0 v) = fetchWord s := rfl
  simp only [step, stepHart, hfetch, dispatch_withSlot0]
  rfl

/-- Settles O30: no operand sees slot 0, and the commit overwrites it. -/
theorem whatSlot0HoldsIsNeverSeen : Obligations.WhatSlot0HoldsIsNeverSeen :=
  ⟨readReg_zero, exec_withSlot0, step_withSlot0⟩

end Sys2Proof.Machine
end

section
/-! Register-register and register-immediate operations (41_r_type.md, 42_i_type.md): the results as arithmetic, each
written by the register-writing template. -/

namespace Sys2Proof.Machine

/-! ## The results as arithmetic -/

/-- The low five bits are the amount modulo 32 (R113). -/
theorem shiftAmount_eq (b : Word) : shiftAmount b = b.toNat % 32 := by
  rw [shiftAmount, BitVec.extractLsb'_toNat, Nat.shiftRight_zero]

/-- A 5-bit amount is its own low five bits (R68). -/
theorem shiftAmount_setWidth (shamt : BitVec 5) : shiftAmount (shamt.setWidth 32) = shamt.toNat := by
  rw [shiftAmount_eq, BitVec.toNat_setWidth]
  omega

/-- Copies of the sign bit entering from the left round the quotient down (R118). -/
theorem shiftRightArith_toInt (a b : Word) : (shiftRightArith a b).toInt = a.toInt / 2 ^ shiftAmount b := by
  rw [shiftRightArith, BitVec.toInt_sshiftRight, Int.shiftRight_eq_div_pow]
  norm_cast

theorem setLess_eq (a b : Word) : setLess a b = if a.toInt < b.toInt then 1#32 else 0#32 := by
  simp [setLess, bool32, lessSigned]

theorem setLessUnsigned_eq (a b : Word) : setLessUnsigned a b = if a.toNat < b.toNat then 1#32 else 0#32 := by
  simp [setLessUnsigned, bool32, lessUnsigned]

theorem extend12_toInt (imm : BitVec 12) : (extend12 imm).toInt = imm.toInt :=
  BitVec.toInt_signExtend_of_le (by decide)

/-! ## R-type -/

/-- Settles O34: the template with the operations of R111, R112, R116, R119 and R120. -/
theorem addSubAndLogicOfRegisters : Obligations.AddSubAndLogicOfRegisters := fun rd rs1 rs2 s legal =>
  ⟨writeResult_spec addWord (regPair s rs1 rs2) rd s legal, writeResult_spec subWord (regPair s rs1 rs2) rd s legal,
    writeResult_spec xorWord (regPair s rs1 rs2) rd s legal, writeResult_spec orWord (regPair s rs1 rs2) rd s legal,
    writeResult_spec andWord (regPair s rs1 rs2) rd s legal⟩

/-- Settles O35: the template with the three shifts, whose amount is the low five bits. -/
theorem shiftsByRegister : Obligations.ShiftsByRegister := by
  intro rd rs1 rs2 s legal
  rw [← shiftAmount_eq]
  obtain ⟨t, ht, written⟩ := writeResult_spec shiftRightArith (regPair s rs1 rs2) rd s legal
  exact ⟨writeResult_spec shiftLeft (regPair s rs1 rs2) rd s legal,
    writeResult_spec shiftRight (regPair s rs1 rs2) rd s legal, t, _, ht, written, shiftRightArith_toInt _ _⟩

/-- Settles O36: the template with the two comparisons. -/
theorem comparesOfRegisters : Obligations.ComparesOfRegisters := by
  intro rd rs1 rs2 s legal
  rw [← setLess_eq, ← setLessUnsigned_eq]
  exact ⟨writeResult_spec setLess (regPair s rs1 rs2) rd s legal,
    writeResult_spec setLessUnsigned (regPair s rs1 rs2) rd s legal⟩

/-! ## I-type -/

/-- Settles O38: the R unit's operations on the sign-extended immediate. -/
theorem logicWithImmediate : Obligations.LogicWithImmediate := fun rd rs1 imm s legal =>
  ⟨writeResult_spec xorWord (regImm s rs1 imm) rd s legal, writeResult_spec orWord (regImm s rs1 imm) rd s legal,
    writeResult_spec andWord (regImm s rs1 imm) rd s legal⟩

/-- Settles O39: the R unit's comparisons with the sign-extended immediate, which keeps its signed value. -/
theorem comparesWithImmediate : Obligations.ComparesWithImmediate := by
  intro rd rs1 imm s legal
  rw [← extend12_toInt, ← setLess_eq, ← setLessUnsigned_eq]
  exact ⟨writeResult_spec setLess (regImm s rs1 imm) rd s legal,
    writeResult_spec setLessUnsigned (regImm s rs1 imm) rd s legal⟩

/-- Settles O40: the R unit's shifts by shamt. -/
theorem shiftsByShamt : Obligations.ShiftsByShamt := by
  intro rd rs1 shamt s legal
  rw [← shiftAmount_setWidth]
  obtain ⟨t, ht, written⟩ := writeResult_spec shiftRightArith (regShamt s rs1 shamt) rd s legal
  exact ⟨writeResult_spec shiftLeft (regShamt s rs1 shamt) rd s legal,
    writeResult_spec shiftRight (regShamt s rs1 shamt) rd s legal, t, _, ht, written, shiftRightArith_toInt _ _⟩

end Sys2Proof.Machine
end

section
/-! Branches (45_branches.md), JALR (47_jumps.md R187) and FENCE (48_fence_and_undefined.md R190). -/

namespace Sys2Proof

/-- R187's mask keeps the opcode alone (D16), and its match is JALR's. -/
theorem decode_jalr_of_mask (extM : Bool) {w : Word} (h : w &&& 0x0000007F#32 = 0x00000067#32) :
    decode extM w = .instr (.jalr (rdField w) (rs1Field w) (immIField w)) :=
  have hop : opcodeField w = 0x67#7 := extractLsb'_eq_of_mask h (by decide)
  decode_jalr hop

/-- R190's mask keeps the opcode alone (D16), and its match is FENCE's. -/
theorem decode_fence_of_mask (extM : Bool) {w : Word} (h : w &&& 0x0000007F#32 = 0x0000000F#32) :
    decode extM w = .instr .fence :=
  have hop : opcodeField w = 0x0F#7 := extractLsb'_eq_of_mask h (by decide)
  decode_fence hop

namespace Machine

/-! ## Branches -/

/-- A branch whose condition decides `p` is taken when `p` holds. -/
theorem branchOn_spec_of_iff {cond : Word → Word → Bool} {rs1 rs2 : RegIdx} (imm : BitVec 13) {s : State} {p : Prop}
    [Decidable p] (legal : s.cfg.wf = true) (hp : cond (s.readReg rs1) (s.readReg rs2) = true ↔ p) :
    ∃ t, branchOn cond rs1 rs2 imm s = .next t ∧
      PcMoved s t (if p then s.pc + imm.signExtend 32 else s.pc + 4#32) := by
  obtain ⟨t, ht, moved⟩ := branchOn_spec cond rs1 rs2 imm s legal
  rw [if_congr hp rfl rfl] at moved
  exact ⟨t, ht, moved⟩

theorem condEq_iff (a b : Word) : condEq a b = true ↔ a = b := by simp [condEq, sameWord]

theorem condNe_iff (a b : Word) : condNe a b = true ↔ ¬ a = b := by simp [condNe, sameWord]

theorem condLt_iff (a b : Word) : condLt a b = true ↔ a.toInt < b.toInt := by simp [condLt, lessSigned]

theorem condGe_iff (a b : Word) : condGe a b = true ↔ b.toInt ≤ a.toInt := by simp [condGe, lessSigned]

theorem condLtu_iff (a b : Word) : condLtu a b = true ↔ a.toNat < b.toNat := by simp [condLtu, lessUnsigned]

theorem condGeu_iff (a b : Word) : condGeu a b = true ↔ b.toNat ≤ a.toNat := by simp [condGeu, lessUnsigned]

/-- Settles O47: BNE's two outcomes are BEQ's, exchanged. -/
theorem equalityBranches : Obligations.EqualityBranches := by
  intro rs1 rs2 imm s legal
  refine ⟨branchOn_spec_of_iff imm legal (condEq_iff _ _), ?_⟩
  rw [← ite_not]
  exact branchOn_spec_of_iff imm legal (condNe_iff _ _)

/-- Settles O48: the branch template with the signed comparison and its negation. -/
theorem signedBranches : Obligations.SignedBranches := fun _ _ imm _ legal =>
  ⟨branchOn_spec_of_iff imm legal (condLt_iff _ _), branchOn_spec_of_iff imm legal (condGe_iff _ _)⟩

/-- Settles O49: the branch template with the unsigned comparison and its negation. -/
theorem unsignedBranches : Obligations.UnsignedBranches := fun _ _ imm _ legal =>
  ⟨branchOn_spec_of_iff imm legal (condLtu_iff _ _), branchOn_spec_of_iff imm legal (condGeu_iff _ _)⟩

/-! ## JALR and FENCE -/

/-- Clearing bit 0 rounds down to an even number. -/
theorem and_FFFFFFFE (a : Word) : a &&& 0xFFFFFFFE#32 = BitVec.ofNat 32 (a.toNat / 2 * 2) := by
  have shifts : BitVec.ofNat 32 (a.toNat / 2 * 2) = a >>> 1 <<< 1 :=
    BitVec.eq_of_toNat_eq (by simp [Nat.shiftRight_eq_div_pow, Nat.shiftLeft_eq])
  rw [shifts]
  apply BitVec.eq_of_getLsbD_eq
  intro i hi
  simp only [BitVec.getLsbD_and, BitVec.getLsbD_shiftLeft, BitVec.getLsbD_ushiftRight]
  interval_cases i <;> simp

/-- Settles O53: the masked word fixes the opcode; the jump template takes the target computed before the write (D8). -/
theorem jalrEncodingLinkAndTarget : Obligations.JalrEncodingLinkAndTarget := by
  refine ⟨fun extM _ h => decode_jalr_of_mask extM h, fun rd rs1 imm s legal => ?_⟩
  rw [← and_FFFFFFFE]
  exact jumpTo_spec (jalrTarget s rs1 imm) rd s legal

/-- Settles O54: the masked word fixes the opcode; FENCE commits the effect that only advances the pc. -/
theorem fenceOnlyAdvancesThePc : Obligations.FenceOnlyAdvancesThePc :=
  ⟨fun extM _ h => decode_fence_of_mask extM h, fun s legal => commit_advance_spec s legal⟩

end Machine
end Sys2Proof
end

section
/-! The multiply/divide unit (49_muldiv.md): the halves of the exact products, the cases of division, and the laws that tie
quotient and remainder together. -/

namespace Sys2Proof.Machine

/-! ## Products (R201 to R204) -/

theorem mulLow_eq (a b : Word) : mulLow a b = a * b := by
  rw [mulLow, BitVec.ofInt_mul, BitVec.ofInt_toInt, BitVec.ofInt_toInt]

/-- The upper half of a 64-bit pattern, as signed numbers, is the quotient rounded down. -/
theorem upperHalf_toInt (x : BitVec 64) : (x.extractLsb' 32 32).toInt = x.toInt / 2 ^ 32 := by
  have hx := x.isLt
  rw [BitVec.toInt_eq_toNat_cond, BitVec.toInt_eq_toNat_cond, BitVec.extractLsb'_toNat, Nat.shiftRight_eq_div_pow]
  split <;> split <;> omega

/-- An exact product that fits 64 signed bits has its quotient by 2^32 as its upper half. -/
theorem highHalf_toInt {p : Int} (h : |p| < 2 ^ 63) : (highHalf p).toInt = p / 2 ^ 32 := by
  obtain ⟨lower, upper⟩ := abs_lt.1 h
  rw [highHalf, upperHalf_toInt, BitVec.toInt_ofInt_eq_self (by decide) lower.le upper]

theorem highHalf_natCast_toNat {n : Nat} (h : n < 2 ^ 64) : (highHalf n).toNat = n / 2 ^ 32 := by
  rw [highHalf, BitVec.ofInt_natCast, BitVec.extractLsb'_toNat, BitVec.toNat_ofNat, Nat.shiftRight_eq_div_pow]
  omega

theorem abs_toInt_le (a : Word) : |a.toInt| ≤ 2 ^ 31 := abs_le.2 ⟨BitVec.le_toInt a, BitVec.toInt_lt.le⟩

theorem mulHigh_toInt (a b : Word) : (mulHigh a b).toInt = a.toInt * b.toInt / 2 ^ 32 := by
  refine highHalf_toInt ?_
  calc |a.toInt * b.toInt| = |a.toInt| * |b.toInt| := abs_mul _ _
    _ ≤ 2 ^ 31 * 2 ^ 31 := mul_le_mul (abs_toInt_le a) (abs_toInt_le b) (abs_nonneg _) (by decide)
    _ < 2 ^ 63 := by decide

theorem mulHighSignedUnsigned_toInt (a b : Word) :
    (mulHighSignedUnsigned a b).toInt = a.toInt * b.toNat / 2 ^ 32 := by
  refine highHalf_toInt ?_
  have hb : (b.toNat : Int) ≤ 2 ^ 32 - 1 := by have := b.isLt; omega
  calc |a.toInt * b.toNat| = |a.toInt| * b.toNat := by rw [abs_mul, Nat.abs_cast]
    _ ≤ 2 ^ 31 * (2 ^ 32 - 1) := mul_le_mul (abs_toInt_le a) hb (Int.natCast_nonneg _) (by decide)
    _ < 2 ^ 63 := by decide

theorem mulHighUnsigned_toNat (a b : Word) : (mulHighUnsigned a b).toNat = a.toNat * b.toNat / 2 ^ 32 := by
  have hlt : a.toNat * b.toNat < 2 ^ 32 * 2 ^ 32 := Nat.mul_lt_mul'' a.isLt b.isLt
  rw [mulHighUnsigned, ← Nat.cast_mul]
  exact highHalf_natCast_toNat hlt

/-- Settles O55: the template with the four products. -/
theorem multiplicationHalves : Obligations.MultiplicationHalves := by
  intro rd rs1 rs2 s legal
  rw [← mulLow_eq]
  obtain ⟨t₁, h₁, written₁⟩ := writeResult_spec mulHigh (regPair s rs1 rs2) rd s legal
  obtain ⟨t₂, h₂, written₂⟩ := writeResult_spec mulHighSignedUnsigned (regPair s rs1 rs2) rd s legal
  obtain ⟨t₃, h₃, written₃⟩ := writeResult_spec mulHighUnsigned (regPair s rs1 rs2) rd s legal
  exact ⟨writeResult_spec mulLow (regPair s rs1 rs2) rd s legal, ⟨t₁, _, h₁, written₁, mulHigh_toInt _ _⟩,
    ⟨t₂, _, h₂, written₂, mulHighSignedUnsigned_toInt _ _⟩, ⟨t₃, _, h₃, written₃, mulHighUnsigned_toNat _ _⟩⟩

/-! ## Signed division (R205, R207) -/

theorem divOverflows_iff (a b : Word) : divOverflows a b = true ↔ a = 0x80000000#32 ∧ b = 0xFFFFFFFF#32 := by
  simp [divOverflows]

theorem divSigned_zero (a : Word) : divSigned a 0#32 = 0xFFFFFFFF#32 := if_pos rfl

theorem remSigned_zero (a : Word) : remSigned a 0#32 = a := if_pos rfl

/-- Off the overflow pair the truncated quotient fits 32 signed bits. -/
theorem divSigned_toInt {a b : Word} (hb : b ≠ 0#32) (h : ¬ (a = 0x80000000#32 ∧ b = 0xFFFFFFFF#32)) :
    (divSigned a b).toInt = a.toInt.tdiv b.toInt := by
  rw [divSigned, if_neg hb, if_neg ((divOverflows_iff a b).not.2 h), BitVec.toInt_ofInt, ← BitVec.toInt_sdiv]
  exact BitVec.toInt_sdiv_of_ne_or_ne a b (not_and_or.1 h)

theorem remSigned_toInt {a b : Word} (hb : b ≠ 0#32) (h : ¬ (a = 0x80000000#32 ∧ b = 0xFFFFFFFF#32)) :
    (remSigned a b).toInt = a.toInt.tmod b.toInt := by
  rw [remSigned, if_neg hb, if_neg ((divOverflows_iff a b).not.2 h), ← Int.tmod_def, ← BitVec.toInt_srem,
    BitVec.ofInt_toInt]

/-- Settles O56: the template with both results, case by case. -/
theorem signedDivisionCases : Obligations.SignedDivisionCases := by
  rintro rd rs1 rs2 s a b legal rfl rfl
  obtain ⟨t, ht, quotient⟩ := writeResult_spec divSigned (regPair s rs1 rs2) rd s legal
  obtain ⟨u, hu, remainder⟩ := writeResult_spec remSigned (regPair s rs1 rs2) rd s legal
  refine ⟨t, u, _, _, ht, quotient, hu, remainder, ?zero, ?overflow, ?rest⟩ <;> dsimp only [regPair]
  case zero =>
    intro hb
    rw [hb]
    exact ⟨divSigned_zero _, remSigned_zero _⟩
  case overflow =>
    intro ha hb
    rw [ha, hb]
    exact ⟨rfl, rfl⟩
  case rest => exact fun hb h => ⟨divSigned_toInt hb h, remSigned_toInt hb h⟩

/-! ## Unsigned division (R206, R208) -/

theorem divUnsigned_zero (a : Word) : divUnsigned a 0#32 = 0xFFFFFFFF#32 := if_pos rfl

theorem remUnsigned_zero (a : Word) : remUnsigned a 0#32 = a := if_pos rfl

theorem divUnsigned_toNat {a b : Word} (hb : b ≠ 0#32) : (divUnsigned a b).toNat = a.toNat / b.toNat := by
  rw [divUnsigned, if_neg hb, BitVec.toNat_ofNat]
  exact Nat.mod_eq_of_lt ((Nat.div_le_self _ _).trans_lt a.isLt)

theorem remUnsigned_toNat {a b : Word} (hb : b ≠ 0#32) : (remUnsigned a b).toNat = a.toNat % b.toNat := by
  rw [remUnsigned, if_neg hb, BitVec.toNat_ofNat]
  exact Nat.mod_eq_of_lt ((Nat.mod_le _ _).trans_lt a.isLt)

/-- Settles O57: the template with both results, case by case. -/
theorem unsignedDivisionCases : Obligations.UnsignedDivisionCases := by
  rintro rd rs1 rs2 s a b legal rfl rfl
  obtain ⟨t, ht, quotient⟩ := writeResult_spec divUnsigned (regPair s rs1 rs2) rd s legal
  obtain ⟨u, hu, remainder⟩ := writeResult_spec remUnsigned (regPair s rs1 rs2) rd s legal
  refine ⟨t, u, _, _, ht, quotient, hu, remainder, ?zero, ?rest⟩ <;> dsimp only [regPair]
  case zero =>
    intro hb
    rw [hb]
    exact ⟨divUnsigned_zero _, remUnsigned_zero _⟩
  case rest => exact fun hb => ⟨divUnsigned_toNat hb, remUnsigned_toNat hb⟩

/-! ## The laws (R209) -/

theorem abs_tmod_lt (a : Int) {b : Int} (hb : b ≠ 0) : |a.tmod b| < |b| := by
  rw [Int.abs_eq_natAbs, Int.abs_eq_natAbs, Int.natAbs_tmod, Int.ofNat_lt]
  exact Nat.mod_lt _ (Int.natAbs_pos.2 hb)

/-- The remainder of truncated division is zero or has the dividend's sign. -/
theorem tmod_eq_zero_or_sign (a b : Int) : a.tmod b = 0 ∨ (a.tmod b).sign = a.sign := by
  by_cases h : b ∣ a
  · exact .inl (Int.tmod_eq_zero_of_dvd h)
  · exact .inr (by rw [Int.sign_tmod, if_neg h])

/-- Settles O58: the cases of O56 and O57 with neither a zero divisor nor the overflow pair, and the laws of integer
division. -/
theorem quotientAndRemainderLaws : Obligations.QuotientAndRemainderLaws := by
  intro rd rs1 rs2 s a b legal ha hb hrd hb0
  refine ⟨fun noOverflow => ?_, ?_⟩
  · obtain ⟨t, u, q, r, ht, quotient, hu, remainder, -, -, offCases⟩ := signedDivisionCases rd rs1 rs2 s a b legal ha hb
    obtain ⟨hq, hr⟩ := offCases hb0 noOverflow
    have hb0' : b.toInt ≠ 0 := fun h => hb0 (BitVec.eq_of_toInt_eq h)
    refine ⟨t, u, _, _, ht, rfl, hu, rfl, ?_⟩
    rw [quotient.result, remainder.result, if_neg hrd, if_neg hrd, hq, hr]
    exact ⟨(Int.mul_tdiv_add_tmod _ _).symm, abs_tmod_lt _ hb0', tmod_eq_zero_or_sign _ _⟩
  · obtain ⟨t, u, q, r, ht, quotient, hu, remainder, -, offCases⟩ := unsignedDivisionCases rd rs1 rs2 s a b legal ha hb
    obtain ⟨hq, hr⟩ := offCases hb0
    have hb0' : 0 < b.toNat := Nat.pos_of_ne_zero fun h => hb0 (BitVec.eq_of_toNat_eq h)
    refine ⟨t, u, _, _, ht, rfl, hu, rfl, ?_⟩
    rw [quotient.result, remainder.result, if_neg hrd, if_neg hrd, hq, hr]
    exact ⟨(Nat.div_add_mod _ _).symm, Nat.mod_lt _ hb0'⟩

end Sys2Proof.Machine
end
